-- ==== Sys2Proof/Word.lean ====
section
/-! DEFINITION. The word types of the URX block (spec R9, R11, R70, R77). -/

namespace Sys2Proof

/-- One byte: every received value, filter member and stored element (R9). -/
abbrev Byte := BitVec 8

/-- One 32-bit word of an operation (R70). Bit 0 is the least significant bit (R11). -/
abbrev Word := BitVec 32

/-- A set of byte values as the 256-bit membership mask of R77: bit `b` is 1 exactly when byte `b` is a
member. One set has one mask, so equal sets are equal data (DESIGN CHOICE, safe: assumption 13). -/
abbrev ByteSet := BitVec 256

end Sys2Proof
end

