-- ==== Sys2Proof/Syntax.lean ====
section
/-! DEFINITION. The operations of the URX block: one constructor for each of the 14 rows of
spec/opcode_table.json. -/

namespace Sys2Proof

/-- The operations. An SVC row is named by the cause value it fixes (R82); its fields are the rest of format S
(R72): IIRHI = IIR[7:4], IIR0 = IIR[0], the LSR sample and the RBR sample. Which class a cause value selects is
the machine's business, because the four cause parameters may differ from their defaults (R82, R100; DEDUCED, safe:
assumption 8). -/
inductive Instr where
  /-- SVC with cause 0 -/
  | svcOther0 (iirHi : BitVec 4) (iir0 : BitVec 1) (lsr rbr : Byte)
  /-- SVC with cause 1 -/
  | svcThre (iirHi : BitVec 4) (iir0 : BitVec 1) (lsr rbr : Byte)
  /-- SVC with cause 2 -/
  | svcRda (iirHi : BitVec 4) (iir0 : BitVec 1) (lsr rbr : Byte)
  /-- SVC with cause 3 -/
  | svcRls (iirHi : BitVec 4) (iir0 : BitVec 1) (lsr rbr : Byte)
  /-- SVC with cause 4 -/
  | svcOther4 (iirHi : BitVec 4) (iir0 : BitVec 1) (lsr rbr : Byte)
  /-- SVC with cause 5 -/
  | svcOther5 (iirHi : BitVec 4) (iir0 : BitVec 1) (lsr rbr : Byte)
  /-- SVC with cause 6 -/
  | svcCti (iirHi : BitVec 4) (iir0 : BitVec 1) (lsr rbr : Byte)
  /-- SVC with cause 7 -/
  | svcOther7 (iirHi : BitVec 4) (iir0 : BitVec 1) (lsr rbr : Byte)
  /-- READ: the drain, with `max_count` (R73, R150) -/
  | read (max : Nat)
  /-- SETF: install the discard filter given by the payload (R75, R77, R145) -/
  | setf (set : ByteSet)
  /-- CLRF: clear the discard filter (R146) -/
  | clrf
  /-- INIT (R141) -/
  | init
  /-- TXB: open the write bracket (R160) -/
  | txb
  /-- TXE: close the write bracket (R161) -/
  | txe
  deriving DecidableEq, Repr

end Sys2Proof
end

