-- ==== Sys2Proof/WellFormed.lean ====
section
/-! DEFINITION. The instruction terms that some operation word stands for. -/

namespace Sys2Proof

/-- Every field but one has a type of exactly its width, so one check is left: the operand of READ is the
zero-extension of a 16-bit field, 0..65535 (R73, R76). -/
def Instr.wf : Instr → Bool
  | .svcOther0 _ _ _ _ => true
  | .svcThre _ _ _ _ => true
  | .svcRda _ _ _ _ => true
  | .svcRls _ _ _ _ => true
  | .svcOther4 _ _ _ _ => true
  | .svcOther5 _ _ _ _ => true
  | .svcCti _ _ _ _ => true
  | .svcOther7 _ _ _ _ => true
  | .read max => decide (max ≤ 65535)
  | .setf _ => true
  | .clrf => true
  | .init => true
  | .txb => true
  | .txe => true

end Sys2Proof
end

