-- ==== Sys2Proof/Decode.lean ====
section
/-! DEFINITION. Decoding operation words (spec R70 to R82) and encoding operations. -/

namespace Sys2Proof

/-- Why a word stream is not an operation. Each of the last three is the `Illegal` of R78. -/
inductive DecodeError where
  /-- there is no word to decode -/
  | endOfStream
  /-- OP is 0b0111 to 0b1111 (R80) -/
  | reservedOp
  /-- a reserved field is not zero (R80) -/
  | reservedField
  /-- SETF with fewer than eight payload words after it (R78) -/
  | truncatedPayload
  deriving DecidableEq, Repr

/-- The operation field OP, bits 31 to 28 (R70). -/
def opField (w : Word) : BitVec 4 := w.extractLsb' 28 4

/-- The 256-bit membership mask of a SETF payload: bit `b mod 32` of payload word `b / 32` is bit `b` (R77). -/
def maskOfWords (p0 p1 p2 p3 p4 p5 p6 p7 : Word) : ByteSet :=
  p0.setWidth 256 ||| (p1.setWidth 256 <<< 32) ||| (p2.setWidth 256 <<< 64) ||| (p3.setWidth 256 <<< 96) |||
    (p4.setWidth 256 <<< 128) ||| (p5.setWidth 256 <<< 160) ||| (p6.setWidth 256 <<< 192) |||
    (p7.setWidth 256 <<< 224)

/-- The eight payload words P0 to P7 of a set (R77). -/
def wordsOfMask (set : ByteSet) : List Word :=
  [set.extractLsb' 0 32, set.extractLsb' 32 32, set.extractLsb' 64 32, set.extractLsb' 96 32,
   set.extractLsb' 128 32, set.extractLsb' 160 32, set.extractLsb' 192 32, set.extractLsb' 224 32]

/-- The SVC row that a format S word belongs to, by its CAUSE field, bits 19 to 17, with the other samples (R72,
R76). No cause value is illegal (R79). -/
def decodeSvc (w : Word) : Instr :=
  let iirHi := w.extractLsb' 20 4
  let iir0 := w.extractLsb' 16 1
  let lsr := w.extractLsb' 8 8
  let rbr := w.extractLsb' 0 8
  match (w.extractLsb' 17 3).toNat with
  | 0 => .svcOther0 iirHi iir0 lsr rbr
  | 1 => .svcThre iirHi iir0 lsr rbr
  | 2 => .svcRda iirHi iir0 lsr rbr
  | 3 => .svcRls iirHi iir0 lsr rbr
  | 4 => .svcOther4 iirHi iir0 lsr rbr
  | 5 => .svcOther5 iirHi iir0 lsr rbr
  | 6 => .svcCti iirHi iir0 lsr rbr
  | _ => .svcOther7 iirHi iir0 lsr rbr

/-- SETF takes the eight words after its first word (R77, R78, R81). -/
def decodeSetf : List Word → Except DecodeError (Instr × List Word)
  | p0 :: p1 :: p2 :: p3 :: p4 :: p5 :: p6 :: p7 :: rest =>
    .ok (.setf (maskOfWords p0 p1 p2 p3 p4 p5 p6 p7), rest)
  | _ => .error .truncatedPayload

/-- A format Z word: bits 27 to 0 are reserved (R74). -/
def decodeZ (i : Instr) (w : Word) (rest : List Word) : Except DecodeError (Instr × List Word) :=
  if w.extractLsb' 0 28 = 0#28 then .ok (i, rest) else .error .reservedField

/-- Decoding, total on any word stream (R78): the operation at its head and the words after it. -/
def decode : List Word → Except DecodeError (Instr × List Word)
  | [] => .error .endOfStream
  | w :: rest =>
    match (opField w).toNat with
    | 0 => if w.extractLsb' 24 4 = 0#4 then .ok (decodeSvc w, rest) else .error .reservedField
    | 1 =>
      if w.extractLsb' 16 12 = 0#12 then .ok (.read (w.extractLsb' 0 16).toNat, rest)
      else .error .reservedField
    | 2 => if w.extractLsb' 0 28 = 0#28 then decodeSetf rest else .error .reservedField
    | 3 => decodeZ .clrf w rest
    | 4 => decodeZ .init w rest
    | 5 => decodeZ .txb w rest
    | 6 => decodeZ .txe w rest
    | _ => .error .reservedOp

/-- The IIR sample of an SVC from its three parts: IIR[7:4], the cause IIR[3:1] and IIR[0] (R72). -/
def iirOf (iirHi : BitVec 4) (cause : BitVec 3) (iir0 : BitVec 1) : Byte :=
  (iirHi.setWidth 8 <<< 4) ||| (cause.setWidth 8 <<< 1) ||| iir0.setWidth 8

/-- A format S word: OP and RES4 are zero, then the IIR, LSR and RBR samples (R72). -/
def encodeSvc (iir lsr rbr : Byte) : Word :=
  (iir.setWidth 32 <<< 16) ||| (lsr.setWidth 32 <<< 8) ||| rbr.setWidth 32

/-- The words of an operation (R70, R72 to R77). -/
def encode : Instr → List Word
  | .svcOther0 iirHi iir0 lsr rbr => [encodeSvc (iirOf iirHi 0 iir0) lsr rbr]
  | .svcThre iirHi iir0 lsr rbr => [encodeSvc (iirOf iirHi 1 iir0) lsr rbr]
  | .svcRda iirHi iir0 lsr rbr => [encodeSvc (iirOf iirHi 2 iir0) lsr rbr]
  | .svcRls iirHi iir0 lsr rbr => [encodeSvc (iirOf iirHi 3 iir0) lsr rbr]
  | .svcOther4 iirHi iir0 lsr rbr => [encodeSvc (iirOf iirHi 4 iir0) lsr rbr]
  | .svcOther5 iirHi iir0 lsr rbr => [encodeSvc (iirOf iirHi 5 iir0) lsr rbr]
  | .svcCti iirHi iir0 lsr rbr => [encodeSvc (iirOf iirHi 6 iir0) lsr rbr]
  | .svcOther7 iirHi iir0 lsr rbr => [encodeSvc (iirOf iirHi 7 iir0) lsr rbr]
  | .read max => [0x10000000 ||| (BitVec.ofNat 16 max).setWidth 32]
  | .setf set => 0x20000000 :: wordsOfMask set
  | .clrf => [0x30000000]
  | .init => [0x40000000]
  | .txb => [0x50000000]
  | .txe => [0x60000000]

/-- The first word of an operation, the `word` that a fault records (R185). -/
def firstWord (i : Instr) : Word := (encode i).headD 0

/-- How many words an operation is, by its OP alone (R70, R81). -/
def lengthByOp (w : Word) : Nat := if opField w = 2#4 then 9 else 1

/-- The words of `spec/opcode_table.json`'s numbering: bit 0 of `w` is the least significant bit of the first
word, word `k` is bits `32 k` to `32 k + 31`, and every bit from `nbits` up is 0. Nine words, the longest
operation. DESIGN CHOICE, safe (assumption 14). -/
def tableWords (nbits w : Nat) : List Word :=
  (List.range 9).map fun k => BitVec.ofNat 32 ((w % 2 ^ nbits) >>> (32 * k))

/-- The instruction the decoder reads from a row of the opcode table. -/
def decodeTableWord (nbits w : Nat) : Option Instr :=
  match decode (tableWords nbits w) with
  | .ok (i, _) => some i
  | .error _ => none

end Sys2Proof
end

