-- ==== Sys2Proof/Config.lean ====
section
/-! DEFINITION. The implementation parameters of the URX block (spec R7, R8), their defaults and their legal
values, and the one free value of the model: what an element of `storage` holds at reset (R39, R210). -/

namespace Sys2Proof

/-- When `read` reads `length` for the copy count: the parameter `READ_LEN_SAMPLE` of R8. -/
inductive LenSample where
  | once
  | atCopy
  deriving DecidableEq, Repr

/-- The parameter table of R8, each with the default that R8 gives. The machine carries it in a field of State
that no step writes, so that a statement about every state holds for every value of every parameter (R7). DESIGN CHOICE,
safe (assumption 1). The defaults of the four causes and of the LSR positions are the spec's own general knowledge:
PRESUMED, unsafe for a statement that rests on their values (assumption 9). -/
structure Config where
  /-- `N`, the capacity of the receive buffer in bytes -/
  capacity : Nat := 64
  /-- `CAUSE_THRE` -/
  causeThre : BitVec 3 := 1
  /-- `CAUSE_RDA` -/
  causeRda : BitVec 3 := 2
  /-- `CAUSE_RLS` -/
  causeRls : BitVec 3 := 3
  /-- `CAUSE_CTI` -/
  causeCti : BitVec 3 := 6
  /-- `LSR_DR` -/
  lsrDr : Fin 8 := 0
  /-- `LSR_OE` -/
  lsrOe : Fin 8 := 1
  /-- `LSR_PE` -/
  lsrPe : Fin 8 := 2
  /-- `LSR_FE` -/
  lsrFe : Fin 8 := 3
  /-- `LSR_BI` -/
  lsrBi : Fin 8 := 4
  /-- `LSR_THRE` -/
  lsrThre : Fin 8 := 5
  /-- `LSR_TEMT` -/
  lsrTemt : Fin 8 := 6
  /-- `LSR_RXFE` -/
  lsrRxfe : Fin 8 := 7
  /-- `NUL_MATCH` -/
  nulMatch : Bool := false
  /-- `READ_LEN_SAMPLE` -/
  readLenSample : LenSample := .once
  /-- `HARDENED_DRAIN` -/
  hardenedDrain : Bool := false
  /-- `GATE_BY_ENABLE` -/
  gateByEnable : Bool := true
  deriving DecidableEq, Repr

/-- Every parameter at the default of R8. -/
def Config.default : Config := {}

/-- The legal values of R8: `1 <= N <= 65535`, the four cause values pairwise distinct, the eight LSR
positions distinct. That a cause lies in 0..7 and a position in 0..7 is said by the types. -/
abbrev Config.Legal (c : Config) : Prop :=
  1 ≤ c.capacity ∧ c.capacity ≤ 65535 ∧
  [c.causeThre, c.causeRda, c.causeRls, c.causeCti].Nodup ∧
  [c.lsrDr, c.lsrOe, c.lsrPe, c.lsrFe, c.lsrBi, c.lsrThre, c.lsrTemt, c.lsrRxfe].Nodup

/-- FREE VALUE. The byte that element `i` of `storage` holds at reset: "unspecified, any byte" (R39), "a free
input" (R210). It has no body, so no proof can lean on a value of it. DESIGN CHOICE, unsafe where two runs are compared
(assumption 2). -/
opaque Config.storageAtReset : Nat → Byte

end Sys2Proof
end

