-- ==== Sys2Proof/Machine/State.lean ====
section
/-! DEFINITION. The state of the URX block and of its three agents (spec R20, R28, R101, R180 to R185, R200), what a
step can stop with, and the state after reset (R39, R210). -/

namespace Sys2Proof.Machine

/-- `storage`'s contents as (index, byte) pairs: an element is listed once an append has stored to it. The form is
canonical (`Memory.wf` in Ops.lean): indices strictly rising. DESIGN CHOICE (assumption 2). -/
abbrev Memory := List Host.Cell

/-- The phase of the foreground agent: the block's only sequencing state (R28). -/
inductive FgPhase where
  /-- no foreground operation in progress -/
  | idle
  /-- READ checked, copy count not yet read (AtCopy only) -/
  | rdCount (max : Nat)
  /-- copying: `k` bytes of `n` copied so far, `out` holds them -/
  | rdCopy (n k : Nat) (out : List Byte)
  /-- copy done, `length` not yet reset -/
  | rdReset (out : List Byte)
  /-- inside the write bracket, between TXB and TXE -/
  | writing
  deriving DecidableEq, Repr

/-- The fault codes of R186, and no others. -/
inductive FaultCode where
  /-- 1, F_NOT_INIT: a foreground operation other than INIT before INIT -/
  | notInit
  /-- 2, F_REINIT: INIT when already initialized -/
  | reInit
  /-- 3, F_FG_BUSY: an operation other than TXE inside a write bracket -/
  | fgBusy
  /-- 4, F_TX_STATE: TXE with no open write bracket -/
  | txState
  /-- 5, F_ILLEGAL: an `Illegal` word, or an SVC word, in the foreground stream -/
  | illegal
  deriving DecidableEq, Repr

/-- What the sticky fault records (R185): the code, the offending operation's first word, and its position in the
foreground stream counted from 0. -/
structure FaultRecord where
  code : FaultCode
  word : Word
  index : Nat
  deriving DecidableEq, Repr

/-- The class of an interrupt cause (R100). -/
inductive EventClass where
  | rls
  | rda
  | thre
  | cti
  | other
  deriving DecidableEq, Repr

/-- What an SVC did (R101). -/
inductive SvcAction where
  | appended (b : Byte)
  | filtered (b : Byte)
  | lineError (b : Byte) (l : Byte)
  | noData
  | ignored (c : EventClass)
  deriving DecidableEq, Repr

/-- The outcome record of an SVC step (R101): which peripheral registers it read, and what it did. -/
structure SvcOutcome where
  iirRead : Bool
  lsrRead : Bool
  rbrRead : Bool
  action : SvcAction
  deriving DecidableEq, Repr

/-- One record of a run's observation (R200): the result of a READ, or the outcome of an SVC. -/
inductive Observation where
  | readResult (count : Nat) (bytes : List Byte)
  | svc (outcome : SvcOutcome)
  deriving DecidableEq, Repr

/-- One choice of the schedule (R184): the foreground agent moves, or the environment delivers an SVC word. -/
inductive Turn where
  | fg
  | svc (word : Word)
  deriving DecidableEq, Repr

/-- The whole machine. The first ten fields are the block (R8, R20); `stream` and `index` are the foreground
agent's own operation stream and its position in it (R180(b), R185); `schedule` and `recurring` are the environment's and
the scheduler's choices, the next one first (R180(c), R184): those of `schedule` come once, and after them those of
`recurring` come again and again without end; with neither left the foreground moves (DESIGN CHOICE, safe, assumption 4;
executions under any endless sequence of choices are in Execution.lean); `trace` is the run's observation, oldest first (R200; DESIGN CHOICE, safe, assumption 17). -/
structure State where
  /-- the parameters of R8; no step writes them -/
  cfg : Config
  /-- the receive buffer's bytes (R21) -/
  storage : Memory
  /-- the count of valid bytes (R22) -/
  length : Nat
  /-- the discard filter (R25) -/
  filter : Option ByteSet
  /-- INIT has run (R26) -/
  initialized : Bool
  /-- IER receive-data-available enable (R27) -/
  ienRda : Bool
  /-- IER transmit-holding-empty enable (R27) -/
  ienThre : Bool
  /-- IER receive-line-status enable (R27) -/
  ienRls : Bool
  /-- the foreground agent's phase (R28) -/
  fg : FgPhase
  /-- the sticky fault (R185) -/
  fault : Option FaultRecord
  /-- the words of the foreground stream not yet issued (R180(b), R181) -/
  stream : List Word
  /-- the position in the foreground stream of the operation at its head, counted from 0 (R185) -/
  index : Nat
  /-- which agent moves at the coming steps, and with which SVC word (R184) -/
  schedule : List Turn
  /-- the choices that come after those of `schedule`, repeated without end (R184) -/
  recurring : List Turn
  /-- the records emitted so far (R13, R200) -/
  trace : List Observation
  deriving DecidableEq, Repr

/-- Why the machine has no next state. The block's own faults (R186) are NOT here: raising one is a next state whose
`fault` field is set (R185). These are the "no step" of R14, and accesses the block cannot make. All are safe: the
model stops where the spec has no step (DEDUCED: assumptions 5, 11 and 12). -/
inductive Fault where
  /-- A fault was raised earlier, so no agent has a step (R181, R183(1), R185). Raised by every meaning and by
  `step`. Safe. -/
  | haltedByFault
  /-- An SVC before INIT has no step (R183(2), U2). Raised by the SVC meanings. Safe. -/
  | svcBeforeInit
  /-- An environment word that does not decode to SVC has no step (R183(3), U18). Raised by `step`. Safe. -/
  | svcIllegalWord
  /-- An SVC whose class is not enabled has no step (R183(4)). Raised by the SVC meanings. Safe. -/
  | svcDisabled
  /-- The foreground agent's stream is empty: it has finished (R181, R200). Raised by `step`. Safe. -/
  | fgFinished
  /-- A READ is in progress, so the foreground agent issues nothing: its only step is the micro-step (R181). Raised by
  the foreground meanings; `step` never reaches it. Safe. -/
  | readInProgress
  /-- A `RdCopy(n, k, out)` phase with `n <= k` has no micro-step (R153); no run reaches one (R28). Raised by
  `step`. Safe. -/
  | copyCompleted
  /-- An access to an index outside 0 to N-1, where `storage` has no element (R50); no run reaches one (R23). Raised by
  the SVC meanings, READ and `step`. Safe. -/
  | storageOutOfRange
  deriving DecidableEq, Repr

/-- An instruction without a meaning. Every row of the table has its meaning, so no arm of exec answers it. -/
inductive Refusal where
  /-- the row of the opcode table with this mnemonic has no meaning yet; raised by exec's arm only; safe -/
  | notModelled (mnemonic : String)
  deriving DecidableEq, Repr

/-- The machine right after reset with parameters `cfg`, the foreground program `stream` loaded, and the choices
`schedule` and then, without end, `recurring` to come (R39, R180(b), R210). The reset values of `index` and `trace` are the model's: DESIGN CHOICE, unsafe
(assumption 3). -/
def State.boot (cfg : Config) (stream : List Word) (schedule recurring : List Turn) : State where
  cfg := cfg
  storage := []
  length := 0
  filter := none
  initialized := false
  ienRda := false
  ienThre := false
  ienRls := false
  fg := .idle
  fault := none
  stream := stream
  index := 0
  schedule := schedule
  recurring := recurring
  trace := []

/-- The machine right after reset (R39, R210), every parameter at its default (R8), no program loaded and no choice made:
DESIGN CHOICE, unsafe for a statement about this one state (assumptions 1, 3, 7 and 15). -/
def State.reset : State := State.boot Config.default [] [] []

end Sys2Proof.Machine
end

