-- ==== Sys2Proof/Machine/Operands.lean ====
section
/-! DEFINITION. What an operation's operands stand for: the samples and the cause of an SVC (spec R72, R76, R100), the
members of a filter (R77), and which operation an instruction is (R140). -/

namespace Sys2Proof.Machine

/-- The 3-bit cause of an IIR sample, IIR[3:1]; the other IIR bits are ignored (R31, R76). -/
def causeOf (iir : Byte) : BitVec 3 := iir.extractLsb' 1 3

/-- The class of a cause value (R100). -/
def classOf (cfg : Config) (cause : BitVec 3) : EventClass :=
  if cause = cfg.causeRls then .rls
  else if cause = cfg.causeRda then .rda
  else if cause = cfg.causeThre then .thre
  else if cause = cfg.causeCti then .cti
  else .other

/-- Whether byte `b` is a member of a set (R77). -/
def ByteSet.mem (set : ByteSet) (b : Byte) : Bool := set.getLsbD b.toNat

/-- The samples (IIR, LSR, RBR) that an SVC carries (R72); none for a foreground operation. -/
def svcSamples : Instr → Option (Byte × Byte × Byte)
  | .svcOther0 iirHi iir0 lsr rbr => some (iirOf iirHi 0 iir0, lsr, rbr)
  | .svcThre iirHi iir0 lsr rbr => some (iirOf iirHi 1 iir0, lsr, rbr)
  | .svcRda iirHi iir0 lsr rbr => some (iirOf iirHi 2 iir0, lsr, rbr)
  | .svcRls iirHi iir0 lsr rbr => some (iirOf iirHi 3 iir0, lsr, rbr)
  | .svcOther4 iirHi iir0 lsr rbr => some (iirOf iirHi 4 iir0, lsr, rbr)
  | .svcOther5 iirHi iir0 lsr rbr => some (iirOf iirHi 5 iir0, lsr, rbr)
  | .svcCti iirHi iir0 lsr rbr => some (iirOf iirHi 6 iir0, lsr, rbr)
  | .svcOther7 iirHi iir0 lsr rbr => some (iirOf iirHi 7 iir0, lsr, rbr)
  | .read _ => none
  | .setf _ => none
  | .clrf => none
  | .init => none
  | .txb => none
  | .txe => none

/-- Whether an operation is SVC, which only the environment issues (R71). -/
def isSvc (i : Instr) : Bool := (svcSamples i).isSome

/-- The number of a fault code (R186). -/
def FaultCode.number : FaultCode → Nat
  | .notInit => 1
  | .reInit => 2
  | .fgBusy => 3
  | .txState => 4
  | .illegal => 5

/-- Whether the foreground agent is inside a READ, so that its only step is a micro-step (R181). -/
def FgPhase.inRead : FgPhase → Bool
  | .idle => false
  | .rdCount _ => true
  | .rdCopy _ _ _ => true
  | .rdReset _ => true
  | .writing => false

end Sys2Proof.Machine
end

