-- ==== Sys2Proof/Machine/Flags.lean ====
section
/-! DEFINITION. The peripheral's flags as the block uses them: the line-status flags of an LSR sample (spec R32, R33) and
the interrupt enables (R27, R36, R183). The block has no status flags of its own (R30). -/

namespace Sys2Proof.Machine

/-- The LSR mask with the one bit at position `p`. -/
def lsrBit (p : Fin 8) : Byte := 1#8 <<< p.val

/-- `ERR_MASK`: overrun, parity, framing, break and receiver FIFO error (R33). -/
def errMask (cfg : Config) : Byte :=
  lsrBit cfg.lsrOe ||| lsrBit cfg.lsrPe ||| lsrBit cfg.lsrFe ||| lsrBit cfg.lsrBi ||| lsrBit cfg.lsrRxfe

/-- An LSR sample has an error when `l & ERR_MASK != 0` (R33). -/
def hasError (cfg : Config) (l : Byte) : Bool := (l &&& errMask cfg) != 0

/-- The data-ready flag of an LSR sample (R32). -/
def dataReady (cfg : Config) (l : Byte) : Bool := l.getLsbD cfg.lsrDr.val

/-- `enabled(class)` of R183: the character timeout goes with the receive-data enable (the spec's general knowledge:
PRESUMED, unsafe, assumption 9), and OTHER is always enabled. -/
def enabled (s : State) : EventClass → Bool
  | .rls => s.ienRls
  | .rda => s.ienRda
  | .cti => s.ienRda
  | .thre => s.ienThre
  | .other => true

/-- The three bits of the peripheral's interrupt-enable register that the block owns, at their register positions:
bit 0 RDA, bit 1 THRE, bit 2 RLS (R36; the spec's general knowledge: PRESUMED, unsafe, assumption 9). A view of the three
state fields, which no step reads. -/
def ier (s : State) : BitVec 3 :=
  BitVec.ofBool s.ienRls ++ BitVec.ofBool s.ienThre ++ BitVec.ofBool s.ienRda

end Sys2Proof.Machine
end

