-- ==== Sys2Proof/Machine/Ops.lean ====
section
/-! DEFINITION. The named operations over the state: memory and field updates, raising a fault (spec R185), issuing a
foreground operation (R140), servicing an SVC (R100 to R116, R183), and the micro-steps of READ (R152, R153, R155). -/

namespace Sys2Proof.Machine

/-- How a meaning answers. -/
abbrev Result := Host.Outcome State Fault Refusal

/-! ## Memory -/

/-- What an unlisted element reads as at this level: no stored value. The drain puts the free reset byte in its
place (`State.byteAt`). DESIGN CHOICE (assumption 2). -/
def Memory.unlisted : Option Byte := none

/-- The byte stored at index `i`, if one has been stored. -/
def Memory.read : Memory → Nat → Option Byte
  | [], _ => Memory.unlisted
  | (a, b) :: rest, i => if a = i then some b else Memory.read rest i

/-- Store byte `b` at index `i`, keeping the indices strictly rising. -/
def Memory.write : Memory → Nat → Byte → Memory
  | [], i, b => [(i, b)]
  | (a, c) :: rest, i, b =>
    if i < a then (i, b) :: (a, c) :: rest
    else if i = a then (i, b) :: rest
    else (a, c) :: Memory.write rest i b

/-- The canonical form: indices strictly rising. An unlisted element reads as no value at all, so no entry can equal
what an unlisted element reads as. -/
abbrev Memory.wf (m : Memory) : Prop := List.Pairwise (fun x y => x.1 < y.1) m

/-! ## Field updates -/

/-- `storage[i] <- b`. -/
def State.putByte (s : State) (i : Nat) (b : Byte) : State := { s with storage := Memory.write s.storage i b }

/-- `length <- n`. -/
def State.setLength (s : State) (n : Nat) : State := { s with length := n }

/-- `filter <- f`, one single-copy-atomic write (R53(b)). -/
def State.setFilter (s : State) (f : Option ByteSet) : State := { s with filter := f }

/-- What INIT writes: `initialized` and the three enables (R141). -/
def State.setInitialized (s : State) : State :=
  { s with initialized := true, ienRda := true, ienThre := true, ienRls := true }

/-- `ien_rda <- b`. -/
def State.setIenRda (s : State) (b : Bool) : State := { s with ienRda := b }

/-- `fg <- p`. -/
def State.setFg (s : State) (p : FgPhase) : State := { s with fg := p }

/-- `fault <- f`. -/
def State.setFault (s : State) (f : Option FaultRecord) : State := { s with fault := f }

/-- Remove the issued operation, `n` words, from the foreground stream, and move on to the next position (R181,
R185). -/
def State.retire (s : State) (n : Nat) : State := { s with stream := s.stream.drop n, index := s.index + 1 }

/-- The choices that come next: those of `schedule`, or, when none is left, those of `recurring` once more (R184,
assumption 4). -/
def State.turns (s : State) : List Turn :=
  match s.schedule with
  | [] => s.recurring
  | t :: rest => t :: rest

/-- The choices that come once. -/
def State.setSchedule (s : State) (l : List Turn) : State := { s with schedule := l }

/-- `emit v` appends `v` to the output record (R13). -/
def State.emit (s : State) (o : Observation) : State := { s with trace := s.trace ++ [o] }

/-! ## Storage accesses -/

/-- The byte element `i` holds: the one last stored, or the free byte it held at reset (R39, R55, R210). -/
def State.byteAt (s : State) (i : Nat) : Byte := (Memory.read s.storage i).getD (Config.storageAtReset i)

/-- `MemRead(i, 1)`; none where `storage` has no element `i` (R12, R50; DEDUCED, safe: assumption 11). -/
def memRead (s : State) (i : Nat) : Option Byte := if i < s.cfg.capacity then some (s.byteAt i) else none

/-- `MemWrite(i, 1, b)`; none where `storage` has no element `i` (R12, R50). -/
def memWrite (s : State) (i : Nat) (b : Byte) : Option State :=
  if i < s.cfg.capacity then some (s.putByte i b) else none

/-! ## Faults and the issue of a foreground operation -/

/-- `raise Fault(code)` (R185): every field stays as it was, and `fault` records the code, the offending
operation's first word and its position. The stream and the position stay too ("no other effect", R140;
DEDUCED, unsafe: assumption 6). -/
def raiseFault (code : FaultCode) (word : Word) (s : State) : Result :=
  .next (s.setFault (some ⟨code, word, s.index⟩))

/-- The issue checks of R140 on a foreground operation, in their order: the first that applies. The check that comes
before them, for an `Illegal` word or an SVC word, is made where words are decoded (`fgIssue`). -/
def fgCheck (i : Instr) (s : State) : Option FaultCode :=
  if i = .init ∧ s.initialized = true then some .reInit
  else if i ≠ .init ∧ s.initialized = false then some .notInit
  else if s.fg = .writing ∧ i ≠ .txe then some .fgBusy
  else if i = .txe ∧ s.fg ≠ .writing then some .txState
  else none

/-- The issue of a foreground operation (R140, R181): no step after a fault or inside a READ; otherwise the checks, and
then the operation's own effect on the state with the operation removed from the stream. The stops are DEDUCED, safe
(assumption 12). -/
def issue (i : Instr) (s : State) (effect : State → Result) : Result :=
  if s.fault.isSome then .fault .haltedByFault
  else if s.fg.inRead then .fault .readInProgress
  else match fgCheck i s with
    | some code => raiseFault code (firstWord i) s
    | none => effect (s.retire (encode i).length)

/-! ## Servicing an SVC -/

/-- Filter membership (R108). -/
def discards (cfg : Config) (filter : Option ByteSet) (b : Byte) : Bool :=
  match filter with
  | none => false
  | some set => ByteSet.mem set b || (cfg.nulMatch && b == 0)

/-- `length` after an append: one more, or 0 when that reaches the capacity (R110). -/
def lengthAfterAppend (cfg : Config) (n : Nat) : Nat := if n + 1 = cfg.capacity then 0 else n + 1

/-- The record of an SVC step; IIR is always read (R101). -/
def svcRecord (lsrRead rbrRead : Bool) (action : SvcAction) : Observation :=
  .svc { iirRead := true, lsrRead := lsrRead, rbrRead := rbrRead, action := action }

/-- Append with wrap-to-empty (R110). -/
def append (b : Byte) (s : State) : Option State :=
  (memWrite s s.length b).map fun s1 => s1.setLength (lengthAfterAppend s.cfg s.length)

/-- `accept(b)`, the step shared by both receive paths (R107), with its record; RBR has been read. -/
def accept (lsrRead : Bool) (b : Byte) (s : State) : Result :=
  if discards s.cfg s.filter b then .next (s.emit (svcRecord lsrRead true (.filtered b)))
  else match append b s with
    | some s1 => .next (s1.emit (svcRecord lsrRead true (.appended b)))
    | none => .fault .storageOutOfRange

/-- The receive-line-status path: the error test, then the data-ready test (R102, R103). -/
def serviceRls (lsr rbr : Byte) (s : State) : Result :=
  if hasError s.cfg lsr then .next (s.emit (svcRecord true true (.lineError rbr lsr)))
  else if dataReady s.cfg lsr then accept true rbr s
  else .next (s.emit (svcRecord true false .noData))

/-- The receive-data-available path: LSR is not read (R104). -/
def serviceRda (rbr : Byte) (s : State) : Result := accept false rbr s

/-- The classes that take no action: neither LSR nor RBR is read (R105, R106). -/
def serviceIgnored (c : EventClass) (s : State) : Result := .next (s.emit (svcRecord false false (.ignored c)))

/-- Why an SVC of class `c` has no step: conditions (1), (2) and (4) of R183, checked in the meaning (DEDUCED, safe:
assumption 12). -/
def svcBlocked (s : State) (c : EventClass) : Option Fault :=
  if s.fault.isSome then some .haltedByFault
  else if !s.initialized then some .svcBeforeInit
  else if s.cfg.gateByEnable && !enabled s c then some .svcDisabled
  else none

/-- The dispatch of R116 on the class. -/
def serviceClass (c : EventClass) (lsr rbr : Byte) (s : State) : Result :=
  match c with
  | .rls => serviceRls lsr rbr s
  | .rda => serviceRda rbr s
  | .thre => serviceIgnored .thre s
  | .cti => serviceIgnored .cti s
  | .other => serviceIgnored .other s

/-- One whole SVC, an atomic step of the ISR agent (R116, R182), where it has one (R183). -/
def svcStep (iir lsr rbr : Byte) (s : State) : Result :=
  let c := classOf s.cfg (causeOf iir)
  match svcBlocked s c with
  | some f => .fault f
  | none => serviceClass c lsr rbr s

/-! ## The drain -/

/-- The phase in which a copy of `n` bytes starts: no copying at all when `n` is 0 (R150, R152). -/
def copyPhase (n : Nat) : FgPhase := if n = 0 then .rdReset [] else .rdCopy n 0 []

/-- The record a READ emits (R155): the count is the number of bytes. -/
def readRecord (out : List Byte) : Observation := .readResult out.length out

/-- CNT (R152): `length` is read again for the copy count. -/
def microCnt (max : Nat) (s : State) : Result := .next (s.setFg (copyPhase (min max s.length)))

/-- CPY (R153): copy element `k`. -/
def microCpy (n k : Nat) (out : List Byte) (s : State) : Result :=
  if k < n then
    match memRead s k with
    | none => .fault .storageOutOfRange
    | some b =>
      .next (s.setFg (if k + 1 = n then .rdReset (out ++ [b]) else .rdCopy n (k + 1) (out ++ [b])))
  else .fault .copyCompleted

/-- RST (R155): `length` is reset whatever it is now, and the result is emitted. -/
def microRst (out : List Byte) (s : State) : Result :=
  .next (((s.setLength 0).setFg .idle).emit (readRecord out))

/-- The bytes at indices 0 to `n`-1 at this step, for the atomic drain (R156). -/
def memReadFirst (s : State) (n : Nat) : Option (List Byte) :=
  if n ≤ s.cfg.capacity then some ((List.range n).map s.byteAt) else none

end Sys2Proof.Machine
end

