-- ==== Sys2Proof/Machine/Foreground.lean ====
section
/-! DEFINITION. The foreground operations that are one step each: INIT, SETF, CLRF, TXB and TXE (spec R141, R145, R146,
R160, R161). -/

namespace Sys2Proof.Machine

/-- INIT: `initialized` and the three enables become true; storage, length, filter and fg are unchanged (R141). -/
def execInit (s : State) : Result := issue .init s fun s1 => .next s1.setInitialized

/-- SETF: the set is installed, replacing any earlier filter (R145). -/
def execSetf (set : ByteSet) (s : State) : Result := issue (.setf set) s fun s1 => .next (s1.setFilter (some set))

/-- CLRF: the filter is unset (R146). -/
def execClrf (s : State) : Result := issue .clrf s fun s1 => .next (s1.setFilter none)

/-- TXB: receive-data interrupts are disabled and the write bracket opens (R160). -/
def execTxb (s : State) : Result := issue .txb s fun s1 => .next ((s1.setIenRda false).setFg .writing)

/-- TXE: receive-data interrupts are enabled and the write bracket closes (R161). -/
def execTxe (s : State) : Result := issue .txe s fun s1 => .next ((s1.setIenRda true).setFg .idle)

end Sys2Proof.Machine
end

