-- ==== Sys2Proof/Machine/Read.lean ====
section
/-! DEFINITION. READ, the drain: its issue step CHK (spec R150), or the whole drain in one step under HARDENED_DRAIN (R156);
and the micro-step that a phase inside a READ makes (R181). -/

namespace Sys2Proof.Machine

/-- The whole drain as one atomic step, of a buffer that is not empty (R156). -/
def drainAtomic (max : Nat) (s : State) : Result :=
  match memReadFirst s (min max s.length) with
  | none => .fault .storageOutOfRange
  | some out => .next ((s.setLength 0).emit (readRecord out))

/-- What a READ that passes its checks does: an empty buffer answers zero bytes at once; otherwise the drain starts
(R150), or is done whole (R156). -/
def readEffect (max : Nat) (s : State) : Result :=
  if s.length = 0 then .next (s.emit (readRecord []))
  else if s.cfg.hardenedDrain then drainAtomic max s
  else match s.cfg.readLenSample with
    | .once => .next (s.setFg (copyPhase (min max s.length)))
    | .atCopy => .next (s.setFg (.rdCount max))

/-- READ (R150, R156). -/
def execRead (max : Nat) (s : State) : Result := issue (.read max) s (readEffect max)

/-- The micro-step of the foreground agent's phase (R181); none where the agent issues an operation instead. -/
def microStep (s : State) : Option Result :=
  match s.fg with
  | .idle => none
  | .rdCount max => some (microCnt max s)
  | .rdCopy n k out => some (microCpy n k out s)
  | .rdReset out => some (microRst out s)
  | .writing => none

end Sys2Proof.Machine
end

