-- ==== Sys2Proof/Machine/Service.lean ====
section
/-! DEFINITION. The interrupt service family: one meaning per SVC row, each the whole SVC of spec R116 on the row's IIR
sample. Which class the row's cause selects follows from the cause parameters (R82, R100). -/

namespace Sys2Proof.Machine

/-- SVC.OTHER0: cause 0; class OTHER with the default parameters (R106). -/
def execSvcOther0 (iirHi : BitVec 4) (iir0 : BitVec 1) (lsr rbr : Byte) (s : State) : Result :=
  svcStep (iirOf iirHi 0 iir0) lsr rbr s

/-- SVC.THRE: cause 1; class THRE with the default parameters (R105). -/
def execSvcThre (iirHi : BitVec 4) (iir0 : BitVec 1) (lsr rbr : Byte) (s : State) : Result :=
  svcStep (iirOf iirHi 1 iir0) lsr rbr s

/-- SVC.RDA: cause 2; class RDA with the default parameters (R104). -/
def execSvcRda (iirHi : BitVec 4) (iir0 : BitVec 1) (lsr rbr : Byte) (s : State) : Result :=
  svcStep (iirOf iirHi 2 iir0) lsr rbr s

/-- SVC.RLS: cause 3; class RLS with the default parameters (R102, R103). -/
def execSvcRls (iirHi : BitVec 4) (iir0 : BitVec 1) (lsr rbr : Byte) (s : State) : Result :=
  svcStep (iirOf iirHi 3 iir0) lsr rbr s

/-- SVC.OTHER4: cause 4; class OTHER with the default parameters (R106). -/
def execSvcOther4 (iirHi : BitVec 4) (iir0 : BitVec 1) (lsr rbr : Byte) (s : State) : Result :=
  svcStep (iirOf iirHi 4 iir0) lsr rbr s

/-- SVC.OTHER5: cause 5; class OTHER with the default parameters (R106). -/
def execSvcOther5 (iirHi : BitVec 4) (iir0 : BitVec 1) (lsr rbr : Byte) (s : State) : Result :=
  svcStep (iirOf iirHi 5 iir0) lsr rbr s

/-- SVC.CTI: cause 6; class CTI with the default parameters (R106). -/
def execSvcCti (iirHi : BitVec 4) (iir0 : BitVec 1) (lsr rbr : Byte) (s : State) : Result :=
  svcStep (iirOf iirHi 6 iir0) lsr rbr s

/-- SVC.OTHER7: cause 7; class OTHER with the default parameters (R106). -/
def execSvcOther7 (iirHi : BitVec 4) (iir0 : BitVec 1) (lsr rbr : Byte) (s : State) : Result :=
  svcStep (iirOf iirHi 7 iir0) lsr rbr s

end Sys2Proof.Machine
end

