-- ==== Sys2Proof/Machine/Dispatch.lean ====
section
/-! DEFINITION. What each operation does: one arm per constructor of Instr, each one call of its meaning. -/

namespace Sys2Proof.Machine

/-- The atomic transition that operation `i` makes at state `s`, where it has one (spec R14). -/
def exec (i : Instr) (s : State) : Host.Outcome State Fault Refusal :=
  match i with
  | .svcOther0 iirHi iir0 lsr rbr => Sys2Proof.Machine.execSvcOther0 iirHi iir0 lsr rbr s
  | .svcThre iirHi iir0 lsr rbr => Sys2Proof.Machine.execSvcThre iirHi iir0 lsr rbr s
  | .svcRda iirHi iir0 lsr rbr => Sys2Proof.Machine.execSvcRda iirHi iir0 lsr rbr s
  | .svcRls iirHi iir0 lsr rbr => Sys2Proof.Machine.execSvcRls iirHi iir0 lsr rbr s
  | .svcOther4 iirHi iir0 lsr rbr => Sys2Proof.Machine.execSvcOther4 iirHi iir0 lsr rbr s
  | .svcOther5 iirHi iir0 lsr rbr => Sys2Proof.Machine.execSvcOther5 iirHi iir0 lsr rbr s
  | .svcCti iirHi iir0 lsr rbr => Sys2Proof.Machine.execSvcCti iirHi iir0 lsr rbr s
  | .svcOther7 iirHi iir0 lsr rbr => Sys2Proof.Machine.execSvcOther7 iirHi iir0 lsr rbr s
  | .read max => Sys2Proof.Machine.execRead max s
  | .setf set => Sys2Proof.Machine.execSetf set s
  | .clrf => Sys2Proof.Machine.execClrf s
  | .init => Sys2Proof.Machine.execInit s
  | .txb => Sys2Proof.Machine.execTxb s
  | .txe => Sys2Proof.Machine.execTxe s

end Sys2Proof.Machine
end

