-- ==== Sys2Proof/Machine/Agents.lean ====
section
/-! DEFINITION. The steps of the agents (spec R180 to R184), and how an operation word is put where the next step takes
it. -/

namespace Sys2Proof.Machine

/-- The foreground agent's issue step (R140, R181): the head of the stream, an `Illegal` word and an SVC word being
faults. -/
def fgIssue (s : State) : Result :=
  match s.stream with
  | [] => .fault .fgFinished
  | w :: rest =>
    match decode (w :: rest) with
    | .error _ => raiseFault .illegal w s
    | .ok (i, _) => if isSvc i then raiseFault .illegal w s else exec i s

/-- A step of the foreground agent, where it has one (R181): the micro-step of its phase, or an issue. -/
def fgTurn (s : State) : Result :=
  if s.fault.isSome then .fault .haltedByFault
  else match microStep s with
    | some r => r
    | none => fgIssue s

/-- A step of the ISR agent on the word the environment delivers, where it has one (R182, R183). -/
def svcTurn (w : Word) (s : State) : Result :=
  if s.fault.isSome then .fault .haltedByFault
  else match decode [w] with
    | .error _ => .fault .svcIllegalWord
    | .ok (i, _) => if isSvc i then exec i s else .fault .svcIllegalWord

/-- The step that one choice stands for: the foreground agent's, or the ISR agent's on the word delivered (R184). -/
def agentStep (t : Turn) (s : State) : Result :=
  match t with
  | .fg => fgTurn s
  | .svc w => svcTurn w s

/-- One step: the agent that the next choice names moves; with no choice to come the foreground agent moves (R184;
DESIGN CHOICE, safe: assumption 4). -/
def turn (s : State) : Result :=
  match s.turns with
  | [] => fgTurn s
  | t :: rest => agentStep t (s.setSchedule rest)

/-- Deliver SVC word `w` next: a raised fault is cleared, and where the event would have no step because INIT has not
run or its class is disabled, the block is put as INIT leaves it (R141, R183). DESIGN CHOICE, safe (assumption 7). -/
def placeEvent (w : Word) (s : State) : State :=
  let s1 := (s.setFault none).setSchedule (.svc w :: s.schedule)
  match svcBlocked s1 (classOf s1.cfg (causeOf (w.extractLsb' 16 8))) with
  | none => s1
  | some _ => s1.setInitialized

/-- Issue the operation in `ws` next: it is put at the head of the foreground stream, a raised fault is cleared, and a
READ in progress is dropped, because inside one no operation is issued (R181). DESIGN CHOICE, safe (assumption 7). -/
def placeOperation (ws : List Word) (s : State) : State :=
  let s1 := { s.setFault none with stream := ws ++ s.stream }
  let s2 := if s1.fg.inRead then s1.setFg .idle else s1
  if s2.turns = [] then s2 else s2.setSchedule (.fg :: s2.schedule)

/-- Put the operation that starts with the words `ws` where the next step takes it: an SVC word (OP 0) as the
environment's event, any other at the head of the foreground stream, with as many words as its OP says (R70, R71,
R81). -/
def placeWords (ws : List Word) (s : State) : State :=
  let w := ws.headD 0
  if opField w = 0#4 then placeEvent w s else placeOperation (ws.take (lengthByOp w)) s

end Sys2Proof.Machine
end

