-- ==== Sys2Proof/Machine/Step.lean ====
section
/-! DEFINITION. One step of the machine, and the host's way to put one operation before it. -/

namespace Sys2Proof.Machine

/-- One atomic step of one agent (spec R14, R184). -/
def step (s : State) : Host.Outcome State Fault Refusal := turn s

/-- `s` with the instruction of bits `w` (numbered as the opcode table numbers them) where the next step takes it
(DESIGN CHOICE, safe: assumption 7). -/
def State.withFetchWord (s : State) (nbits w : Nat) : State := placeWords (tableWords nbits w) s

end Sys2Proof.Machine
end

