-- ==== Sys2Proof/Machine/Assembler.lean ====
section
/-! DEFINITION. The spec's assembler: the base forms (spec R83), the pseudo-operations with their expansions under the
default cause parameters (R84), and the text of a line. Characters are their ASCII codes. What R83 leaves open of the
text is DESIGN CHOICE, safe (assumption 10). -/

namespace Sys2Proof.Machine

/-- One line of assembler: a base form of R83 or a pseudo-operation of R84. A filter's operand is its bytes, written as
a list or as a text. -/
inductive AsmLine where
  | svc (iir lsr rbr : Byte)
  | read (max : BitVec 16)
  | setf (bytes : List Byte)
  | clrf
  | init
  | txb
  | txe
  | rx (b : Byte)
  | rls (l b : Byte)
  | thre
  | cti
  | write
  deriving DecidableEq, Repr

/-- The set of the listed bytes (R83). -/
def setOfBytes (bytes : List Byte) : ByteSet := bytes.foldr (fun b set => set ||| (1#256 <<< b.toNat)) 0

/-- The words a line stands for (R83, R84). -/
def assemble : AsmLine → List Word
  | .svc iir lsr rbr => [encodeSvc iir lsr rbr]
  | .read max => encode (.read max.toNat)
  | .setf bytes => encode (.setf (setOfBytes bytes))
  | .clrf => encode .clrf
  | .init => encode .init
  | .txb => encode .txb
  | .txe => encode .txe
  | .rx b => [encodeSvc 0x04 0x00 b]
  | .rls l b => [encodeSvc 0x06 l b]
  | .thre => [encodeSvc 0x02 0x00 0x00]
  | .cti => [encodeSvc 0x0C 0x00 0x00]
  | .write => encode .txb ++ encode .txe

/-! ## The text of a line -/

/-- A token of a line. -/
inductive AsmToken where
  /-- letters, digits and other plain characters in a row -/
  | run (codes : List Nat)
  /-- a character in single quotes -/
  | chr (code : Nat)
  /-- characters in double quotes -/
  | text (codes : List Nat)
  | comma
  | openBrace
  | closeBrace
  /-- what no token may hold: an unknown escape, or a quote left open -/
  | bad
  deriving DecidableEq, Repr

/-- What the C escape with this letter stands for (R83). -/
def escapeCode (code : Nat) : Option Nat :=
  if code = 114 then some 0x0D
  else if code = 110 then some 0x0A
  else if code = 48 then some 0x00
  else none

/-- What the reading of a line is inside of. -/
inductive AsmMode where
  | plain
  | chr
  | text
  deriving DecidableEq, Repr

/-- The token that ends here: a run, if one has been read. -/
def endRun (acc : List Nat) : List AsmToken := if acc = [] then [] else [.run acc.reverse]

/-- The tokens of a line's character codes. `acc` holds, newest first, what the current run or quotation has read.
Codes: 9 tab, 32 space, 34 and 39 the quotes, 44 comma, 59 semicolon, 92 backslash, 123 and 125 the braces. A quote, a
brace, a comma or a semicolon ends the run before it, so none of them needs a space before it; R83 is silent on that
(DESIGN CHOICE, safe: assumption 10). -/
def tokens : AsmMode → List Nat → List Nat → List AsmToken
  | .plain, acc, [] => endRun acc
  | .chr, _, [] => [.bad]
  | .text, _, [] => [.bad]
  | .plain, acc, c :: rest =>
    if c = 59 then endRun acc
    else if c = 32 ∨ c = 9 then endRun acc ++ tokens .plain [] rest
    else if c = 44 then endRun acc ++ .comma :: tokens .plain [] rest
    else if c = 123 then endRun acc ++ .openBrace :: tokens .plain [] rest
    else if c = 125 then endRun acc ++ .closeBrace :: tokens .plain [] rest
    else if c = 39 then endRun acc ++ tokens .chr [] rest
    else if c = 34 then endRun acc ++ tokens .text [] rest
    else tokens .plain (c :: acc) rest
  | .chr, acc, 92 :: e :: rest =>
    match escapeCode e with
    | some c => tokens .chr (c :: acc) rest
    | none => [.bad]
  | .chr, acc, c :: rest =>
    if c = 39 then
      match acc with
      | [code] => .chr code :: tokens .plain [] rest
      | _ => [.bad]
    else tokens .chr (c :: acc) rest
  | .text, acc, 92 :: e :: rest =>
    match escapeCode e with
    | some c => tokens .text (c :: acc) rest
    | none => [.bad]
  | .text, acc, c :: rest =>
    if c = 34 then .text acc.reverse :: tokens .plain [] rest
    else tokens .text (c :: acc) rest

/-- The value of a digit in the given base. -/
def digitValue (base code : Nat) : Option Nat :=
  let v :=
    if 48 ≤ code ∧ code ≤ 57 then code - 48
    else if 65 ≤ code ∧ code ≤ 70 then code - 55
    else if 97 ≤ code ∧ code ≤ 102 then code - 87
    else 255
  if v < base then some v else none

/-- The value of digits in the given base, most significant first. -/
def digitsValue (base : Nat) : Nat → List Nat → Option Nat
  | v, [] => some v
  | v, c :: rest => (digitValue base c).bind fun d => digitsValue base (v * base + d) rest

/-- A number: `0x` and hex digits, or decimal digits (R83). R83 writes a hex byte as `0xNN`; here one or more digits are
read, leading zeros among them, hex or decimal, and the range of the operand alone bounds the value (DESIGN CHOICE, safe:
assumption 10). -/
def numberValue : List Nat → Option Nat
  | [] => none
  | 48 :: 120 :: c :: rest => digitsValue 16 0 (c :: rest)
  | c :: rest => digitsValue 10 0 (c :: rest)

/-- The value of an operand token (R83). -/
def operandValue : AsmToken → Option Nat
  | .run codes => numberValue codes
  | .chr code => some code
  | .text _ => none
  | .comma => none
  | .openBrace => none
  | .closeBrace => none
  | .bad => none

/-- A byte operand: a value of at most 255. R83 gives a character operand's ASCII code only; a character of code 128 to 255
is taken as its code, and one above 255 is refused (DESIGN CHOICE, safe: assumption 10). -/
def byteOperand (t : AsmToken) : Option Byte :=
  (operandValue t).bind fun v => if v < 256 then some (BitVec.ofNat 8 v) else none

/-- One or more byte operands of a set, separated by commas, up to the closing brace that ends the line. -/
def setOperands : List AsmToken → Option (List Byte)
  | [t, .closeBrace] => (byteOperand t).map fun b => [b]
  | t :: .comma :: rest => (byteOperand t).bind fun b => (setOperands rest).map fun bs => b :: bs
  | _ => none

/-- The bytes of a text, without a terminator (R83). Codes 128 to 255 are taken as they are, and one above 255 is refused
(DESIGN CHOICE, safe: assumption 10). -/
def textBytes : List Nat → Option (List Byte)
  | [] => some []
  | c :: rest => if c < 256 then (textBytes rest).map fun bs => BitVec.ofNat 8 c :: bs else none

/-- The codes of a word. -/
def codesOf (chars : List Char) : List Nat := chars.map Char.toNat

/-- A line from its operation and the tokens after it. -/
def parseOperation (op : List Nat) (args : List AsmToken) : Option AsmLine :=
  if op = codesOf ['s', 'v', 'c'] then
    match args with
    | [a, .comma, b, .comma, c] =>
      (byteOperand a).bind fun iir => (byteOperand b).bind fun lsr => (byteOperand c).map fun rbr => .svc iir lsr rbr
    | _ => none
  else if op = codesOf ['r', 'e', 'a', 'd'] then
    match args with
    | [.run codes] => (numberValue codes).bind fun v => if v < 65536 then some (.read (BitVec.ofNat 16 v)) else none
    | _ => none
  else if op = codesOf ['s', 'e', 't', 'f'] then
    match args with
    | [.text codes] => (textBytes codes).map .setf
    | [.openBrace, .closeBrace] => some (.setf [])
    | .openBrace :: rest => (setOperands rest).map .setf
    | _ => none
  else if op = codesOf ['r', 'x'] then
    match args with
    | [a] => (byteOperand a).map .rx
    | _ => none
  else if op = codesOf ['r', 'l', 's'] then
    match args with
    | [a, .comma, b] => (byteOperand a).bind fun l => (byteOperand b).map fun r => .rls l r
    | _ => none
  else if args ≠ [] then none
  else if op = codesOf ['c', 'l', 'r', 'f'] then some .clrf
  else if op = codesOf ['i', 'n', 'i', 't'] then some .init
  else if op = codesOf ['t', 'x', 'b'] then some .txb
  else if op = codesOf ['t', 'x', 'e'] then some .txe
  else if op = codesOf ['t', 'h', 'r', 'e'] then some .thre
  else if op = codesOf ['c', 't', 'i'] then some .cti
  else if op = codesOf ['w', 'r', 'i', 't', 'e'] then some .write
  else none

/-- The words of a line of text: none for a line that holds no operation; `none` for a line that is not of R83's or
R84's syntax. -/
def assembleText (line : List Char) : Option (List Word) :=
  match tokens .plain [] (codesOf line) with
  | [] => some []
  | .run op :: args => (parseOperation op args).map assemble
  | _ => none

end Sys2Proof.Machine
end

