-- ==== Sys2Proof/Machine/Execution.lean ====
section
/-! DEFINITION. Finite and infinite executions (spec R184): the environment and the scheduler choose anew before every step,
without any bound or fairness. -/

namespace Sys2Proof.Machine

/-- Step `n` belongs to an execution of length `len`; `none` is an execution without end. -/
def WithinLength (len : Option Nat) (n : Nat) : Prop := ∀ k, len = some k → n < k

/-- An execution from `start`: `choice n` is the choice made before step `n`, and `run n` the state before it. Each step is
an enabled step of the agent chosen, and there is no other order constraint (R184). -/
def ExecutionFrom (start : State) (len : Option Nat) (choice : Nat → Turn) (run : Nat → State) : Prop :=
  run 0 = start ∧ ∀ n, WithinLength len n → agentStep (choice n) (run n) = .next (run (n + 1))

/-- An execution of the machine with parameters `cfg` and foreground program `stream`: it starts at reset (R210). -/
def Execution (cfg : Config) (stream : List Word) (len : Option Nat) (choice : Nat → Turn) (run : Nat → State) : Prop :=
  ExecutionFrom (State.boot cfg stream [] []) len choice run

end Sys2Proof.Machine
end

