-- ==== Sys2Proof/Safety.lean ====
section
/-! DEFINITION. What claims are stated in: the invariant of the block (spec R23, R24, R28, R29, R39), when a run is
finished (R200), and the conditions under which rules speak (R33, R108, R181, R183), said in the spec's own terms and
not through the operations that compute them. -/

namespace Sys2Proof.Machine

/-- What a phase inside a READ says of the state (R28, R29): the settings that lead to it, the copy's counters, and
that every element the copy will read has been stored to (R213). -/
def PhaseInv (s : State) : Prop :=
  match s.fg with
  | .idle => True
  | .rdCount _ => s.cfg.hardenedDrain = false ∧ s.cfg.readLenSample = .atCopy
  | .rdCopy n k out =>
    s.cfg.hardenedDrain = false ∧ k < n ∧ out.length = k ∧ n < s.cfg.capacity ∧
      ∀ i, i < n → (Memory.read s.storage i).isSome = true
  | .rdReset out => s.cfg.hardenedDrain = false ∧ out.length < s.cfg.capacity
  | .writing => True

/-- The block's invariant: it holds after reset, and every step keeps it. -/
structure BlockInv (s : State) : Prop where
  /-- the parameters have legal values (R8) -/
  cfgLegal : s.cfg.Legal
  /-- the storage list is in canonical form -/
  storageWf : Memory.wf s.storage
  /-- no element outside 0 to N-1 is listed (R21) -/
  storageInRange : ∀ c ∈ s.storage, c.1 < s.cfg.capacity
  /-- `0 <= length <= N-1` (R23) -/
  lengthBound : s.length < s.cfg.capacity
  /-- every valid element has been stored to (R24) -/
  validStored : ∀ i, i < s.length → (Memory.read s.storage i).isSome = true
  /-- the READ in progress, if any (R28) -/
  phase : PhaseInv s
  /-- before INIT nothing has left its reset value (R141 corner case 1) -/
  beforeInit : s.initialized = false →
    s.length = 0 ∧ s.filter = none ∧ s.fg = .idle ∧
      s.ienRda = false ∧ s.ienThre = false ∧ s.ienRls = false
  /-- after INIT the enables are those of the write bracket (R27, R160, R161) -/
  afterInit : s.initialized = true →
    s.ienThre = true ∧ s.ienRls = true ∧ (s.ienRda = true ↔ s.fg ≠ .writing)

/-- A run is finished: no fault, nothing left to issue, no operation in progress (R200). -/
def Finished (s : State) : Prop := s.fault = none ∧ s.stream = [] ∧ s.fg = .idle

/-- `k` steps in a row, stopping where there is no step. -/
def runSteps : Nat → State → Host.Outcome State Fault Refusal
  | 0, s => .next s
  | k + 1, s =>
    match step s with
    | .next t => runSteps k t
    | .fault r => .fault r
    | .refused r => .refused r

/-- The coming step is the foreground agent's (R184). -/
def FgMoves (s : State) : Prop := s.turns.head? = none ∨ s.turns.head? = some .fg

/-- The foreground agent issues an operation when it moves: no fault, and no READ in progress (R140, R181). -/
def CanIssue (s : State) : Prop := s.fault = none ∧ (s.fg = .idle ∨ s.fg = .writing)

/-- An SVC of class `c` has a step: conditions (1), (2) and (4) of R183. -/
def SvcMayOccur (s : State) (c : EventClass) : Prop :=
  s.fault = none ∧ s.initialized = true ∧
    (s.cfg.gateByEnable = true →
      (c = .rls → s.ienRls = true) ∧ (c = .rda → s.ienRda = true) ∧
      (c = .cti → s.ienRda = true) ∧ (c = .thre → s.ienThre = true))

/-- One of the five error flags of an LSR sample is set (R32, R33). -/
def LineErrorFlag (cfg : Config) (l : Byte) : Prop :=
  l.getLsbD cfg.lsrOe.val = true ∨ l.getLsbD cfg.lsrPe.val = true ∨ l.getLsbD cfg.lsrFe.val = true ∨
    l.getLsbD cfg.lsrBi.val = true ∨ l.getLsbD cfg.lsrRxfe.val = true

/-- The installed filter drops byte `b` (R25, R108). -/
def FilterDrops (cfg : Config) (filter : Option ByteSet) (b : Byte) : Prop :=
  ∃ set, filter = some set ∧ (set.getLsbD b.toNat = true ∨ (cfg.nulMatch = true ∧ b = 0))

/-- `s` with byte `b` appended (R110) and the outcome record of the SVC emitted. -/
def appendedState (s : State) (b : Byte) (o : SvcOutcome) : State :=
  { s with
    storage := Memory.write s.storage s.length b
    length := if s.length + 1 = s.cfg.capacity then 0 else s.length + 1
    trace := s.trace ++ [.svc o] }

/-- `s` with a fault raised (R185). -/
def faultedState (s : State) (code : FaultCode) (word : Word) : State :=
  { s with fault := some ⟨code, word, s.index⟩ }

/-- The answer `o` raises a fault at `s` (R185): every field of the block stays as it was, nothing is emitted, and `fault`
records the code, the first word and the position. What becomes of the agents' own stream, position and schedule is not
said here (see assumption 6, and the obligation FaultLeavesTheStream). -/
def RaisesFault (o : Host.Outcome State Fault Refusal) (s : State) (code : FaultCode) (word : Word) : Prop :=
  ∃ stream index turns, o = .next { s with
    fault := some ⟨code, word, s.index⟩, stream := stream, index := index, schedule := turns }

/-- The answer `o` is the next state `t`, whatever choices of the schedule are left. -/
def Moves (o : Host.Outcome State Fault Refusal) (t : State) : Prop := ∃ turns, o = .next { t with schedule := turns }

/-- A format Z or F word of operation field `op` with a reserved bit set raises F_ILLEGAL when it is issued (R74, R75,
R78, R140). -/
def ReservedBitsFault (op : BitVec 4) : Prop :=
  ∀ (s : State) (w : Word) (rest : List Word),
    CanIssue s → FgMoves s → s.stream = w :: rest → opField w = op → w.extractLsb' 0 28 ≠ 0#28 →
      RaisesFault (step s) s .illegal w

end Sys2Proof.Machine
end

