-- ==== Sys2Proof/Certificates/Slice0/Obligations.lean ====
section
/-! DEFINITION. The statements about the URX block that the provers settle. Each docstring says which rule of the spec
it formalises. A statement quantifies over every state, and so over every value of every parameter of R8. -/

open Sys2Proof Sys2Proof.Machine

/-! ## Encoding -/

/-- Decoding the words of a well-formed operation, whatever follows them, gives the operation back and leaves what
follows (R70 to R78). -/
def Obligations.DecodeUndoesEncode : Prop :=
  ∀ (i : Instr) (rest : List Word), i.wf = true → decode (encode i ++ rest) = .ok (i, rest)

/-- An operation that decodes is well-formed, and its words are the ones that the decoder read: no two words are the
same operation (R78, R80). -/
def Obligations.EncodeUndoesDecode : Prop :=
  ∀ (ws rest : List Word) (i : Instr), decode ws = .ok (i, rest) → i.wf = true ∧ ws = encode i ++ rest

/-- Words written out from the encodings of R72 to R77 and R82 decode to the operations they stand for. -/
def Obligations.DecodeReadsSpecWords : Prop :=
  decode [0x00069F58] = .ok (.svcRls 0 0 0x9F 0x58, []) ∧
  decode [0x00C40041] = .ok (.svcRda 0xC 0 0x00 0x41, []) ∧
  decode [0x00FFFFFF] = .ok (.svcOther7 0xF 1 0xFF 0xFF, []) ∧
  decode [0x10000040] = .ok (.read 64, []) ∧
  decode [0x20000000, 0x2400, 0, 0, 0, 0, 0, 0, 0x80000000, 7] = .ok (.setf (1 <<< 10 ||| 1 <<< 13 ||| 1 <<< 255), [7]) ∧
  decode [0x30000000] = .ok (.clrf, []) ∧
  decode [0x40000000] = .ok (.init, []) ∧
  decode [0x50000000] = .ok (.txb, []) ∧
  decode [0x60000000] = .ok (.txe, [])

/-- R78 and R80: a word stream with a first word is `Illegal` exactly when the first word's OP is reserved, a reserved
field of its format is not zero, or a SETF's payload is truncated. -/
def Obligations.IllegalWordsExactly : Prop :=
  ∀ (w : Word) (rest : List Word),
    (∃ e, decode (w :: rest) = .error e) ↔
      7 ≤ (w.extractLsb' 28 4).toNat ∨
      (w.extractLsb' 28 4 = 0#4 ∧ w.extractLsb' 24 4 ≠ 0#4) ∨
      (w.extractLsb' 28 4 = 1#4 ∧ w.extractLsb' 16 12 ≠ 0#12) ∨
      (2 ≤ (w.extractLsb' 28 4).toNat ∧ w.extractLsb' 0 28 ≠ 0#28) ∨
      (w.extractLsb' 28 4 = 2#4 ∧ rest.length < 8)

/-- R79, with the sample fields of R72: whatever its cause value, a word with OP and RES4 zero decodes to an SVC that
carries the word's IIR, LSR and RBR samples. -/
def Obligations.EveryCauseDecodesToSvc : Prop :=
  ∀ (w : Word) (rest : List Word), w.extractLsb' 24 8 = 0#8 →
    ∃ i, decode (w :: rest) = .ok (i, rest) ∧
      svcSamples i = some (w.extractLsb' 16 8, w.extractLsb' 8 8, w.extractLsb' 0 8)

/-- R77: the SETF payload is a membership mask. Byte `b` is a member exactly when bit `b & 31` of payload word `b >> 5`
is 1, and every payload is legal. -/
def Obligations.SetfPayloadIsMembershipMask : Prop :=
  ∀ (p0 p1 p2 p3 p4 p5 p6 p7 : Word) (rest : List Word),
    ∃ set, decode (0x20000000 :: p0 :: p1 :: p2 :: p3 :: p4 :: p5 :: p6 :: p7 :: rest) = .ok (.setf set, rest) ∧
      ∀ b : Byte, ByteSet.mem set b =
        ([p0, p1, p2, p3, p4, p5, p6, p7].getD (b >>> 5).toNat 0).getLsbD (b &&& 31).toNat

/-- R100: the class of an IIR sample is decided by IIR[3:1] and the four cause parameters. -/
def Obligations.CauseFieldSelectsTheClass : Prop :=
  ∀ (cfg : Config) (iir : Byte), cfg.Legal →
    (classOf cfg (causeOf iir) = .rls ↔ iir.extractLsb' 1 3 = cfg.causeRls) ∧
    (classOf cfg (causeOf iir) = .rda ↔ iir.extractLsb' 1 3 = cfg.causeRda) ∧
    (classOf cfg (causeOf iir) = .thre ↔ iir.extractLsb' 1 3 = cfg.causeThre) ∧
    (classOf cfg (causeOf iir) = .cti ↔ iir.extractLsb' 1 3 = cfg.causeCti) ∧
    (classOf cfg (causeOf iir) = .other ↔
      iir.extractLsb' 1 3 ∉ [cfg.causeRls, cfg.causeRda, cfg.causeThre, cfg.causeCti])

/-- R82: with the default cause parameters, the class of each SVC row. -/
def Obligations.DefaultParametersNameTheSvcRows : Prop :=
  ∀ (iirHi : BitVec 4) (iir0 : BitVec 1) (lsr rbr : Byte),
    let cls (i : Instr) : Option EventClass :=
      (svcSamples i).map fun x => classOf Config.default (causeOf x.1)
    cls (.svcOther0 iirHi iir0 lsr rbr) = some .other ∧
    cls (.svcThre iirHi iir0 lsr rbr) = some .thre ∧
    cls (.svcRda iirHi iir0 lsr rbr) = some .rda ∧
    cls (.svcRls iirHi iir0 lsr rbr) = some .rls ∧
    cls (.svcOther4 iirHi iir0 lsr rbr) = some .other ∧
    cls (.svcOther5 iirHi iir0 lsr rbr) = some .other ∧
    cls (.svcCti iirHi iir0 lsr rbr) = some .cti ∧
    cls (.svcOther7 iirHi iir0 lsr rbr) = some .other

/-- R84: the expansions of the pseudo-operations and their words, for every operand. -/
def Obligations.PseudoOperationsExpand : Prop :=
  (∀ b : Byte, assemble (.rx b) = [0x00040000 ||| b.setWidth 32]) ∧
  (∀ l b : Byte, assemble (.rls l b) = [0x00060000 ||| (l.setWidth 32 <<< 8) ||| b.setWidth 32]) ∧
  assemble .thre = [0x00020000] ∧
  assemble .cti = [0x000C0000] ∧
  assemble .write = [0x50000000, 0x60000000] ∧
  (∀ b : Byte, assemble (.rx b) = assemble (.svc 0x04 0x00 b)) ∧
  (∀ l b : Byte, assemble (.rls l b) = assemble (.svc 0x06 l b)) ∧
  assemble .thre = assemble (.svc 0x02 0x00 0x00) ∧
  assemble .cti = assemble (.svc 0x0C 0x00 0x00) ∧
  assemble .write = assemble .txb ++ assemble .txe

/-! ## Steps -/

/-- A foreground step runs the operation at the head of the stream (R140, R181): when the words there decode to an
operation that is not SVC, the step is `exec` of it, with the schedule's choice used up (the schedule is the model's:
assumption 4). -/
def Obligations.ForegroundStepRunsDecodedOperation : Prop :=
  ∀ (s : State) (i : Instr) (rest : List Word),
    CanIssue s → FgMoves s → decode s.stream = .ok (i, rest) → isSvc i = false →
      step s = exec i { s with schedule := s.turns.tail }

/-- An ISR step runs the SVC word the environment delivers (R182, R183; the schedule is the model's: assumption 4). -/
def Obligations.InterruptStepRunsDecodedSvc : Prop :=
  ∀ (s : State) (w : Word) (i : Instr) (turns : List Turn),
    s.fault = none → s.turns = .svc w :: turns → decode [w] = .ok (i, []) → isSvc i = true →
      step s = exec i { s with schedule := turns }

/-- R181: when the foreground agent moves, it has a step exactly when no fault is raised and it is inside a READ or has
an operation left to issue. Stated over the states of the invariant. -/
def Obligations.ForegroundStepsExactlyWhen : Prop :=
  ∀ s : State, BlockInv s → FgMoves s →
    ((∃ t, step s = .next t) ↔ s.fault = none ∧ ((s.fg ≠ .idle ∧ s.fg ≠ .writing) ∨ s.stream ≠ []))

/-- R183: an SVC word has a step exactly when no fault is raised, INIT has run, the word decodes to SVC, and, under
GATE_BY_ENABLE, the enable of its class is set. Stated over the states of the invariant. -/
def Obligations.SvcStepsExactlyWhen : Prop :=
  ∀ (s : State) (w : Word) (turns : List Turn), BlockInv s → s.turns = .svc w :: turns →
    ((∃ t, step s = .next t) ↔
      s.fault = none ∧ s.initialized = true ∧
      (∃ i, decode [w] = .ok (i, []) ∧ isSvc i = true) ∧
      (s.cfg.gateByEnable = true →
        match classOf s.cfg (w.extractLsb' 17 3) with
        | .rls => s.ienRls = true
        | .rda => s.ienRda = true
        | .cti => s.ienRda = true
        | .thre => s.ienThre = true
        | .other => True))

/-! ## Reset and the invariant -/

/-- R39 and R210: the values after reset. What an element of storage holds is the free value, whatever it is. -/
def Obligations.ResetValues : Prop :=
  ∀ (cfg : Config) (stream : List Word) (schedule recurring : List Turn),
    let s := State.boot cfg stream schedule recurring
    s.length = 0 ∧ s.filter = none ∧ s.initialized = false ∧
    s.ienRda = false ∧ s.ienThre = false ∧ s.ienRls = false ∧
    s.fg = .idle ∧ s.fault = none ∧ ∀ i, s.byteAt i = Config.storageAtReset i

/-- The invariant holds after reset, for every legal choice of parameters, every foreground stream and every schedule;
State.reset is the one with the default parameters and nothing loaded. -/
def Obligations.InvariantHoldsAtReset : Prop :=
  (∀ (cfg : Config) (stream : List Word) (schedule recurring : List Turn), cfg.Legal →
    BlockInv (State.boot cfg stream schedule recurring)) ∧
    BlockInv State.reset

/-- Every step keeps the invariant: the length stays below the capacity (R23), the storage list stays canonical and in
range (R21, R50), the valid elements and those a copy will read have been stored to (R24, R213), the copy's counters
keep R28's bounds, and the enables follow the write bracket (R27). -/
def Obligations.InvariantKeptByEveryStep : Prop :=
  ∀ s t : State, BlockInv s → step s = .next t → BlockInv t

/-! ## The interrupt service family -/

/-- R102 and R103, with ERR_MASK of R33: the receive-line-status path. The error test comes first; then the data-ready
test; an accepted byte goes through the filter and the append. -/
def Obligations.LineStatusServiceResult : Prop :=
  ∀ (i : Instr) (iir lsr rbr : Byte) (s : State),
    svcSamples i = some (iir, lsr, rbr) → iir.extractLsb' 1 3 = s.cfg.causeRls → SvcMayOccur s .rls →
    (LineErrorFlag s.cfg lsr →
      exec i s = .next { s with trace := s.trace ++ [.svc ⟨true, true, true, .lineError rbr lsr⟩] }) ∧
    (¬ LineErrorFlag s.cfg lsr → lsr.getLsbD s.cfg.lsrDr.val = true → FilterDrops s.cfg s.filter rbr →
      exec i s = .next { s with trace := s.trace ++ [.svc ⟨true, true, true, .filtered rbr⟩] }) ∧
    (¬ LineErrorFlag s.cfg lsr → lsr.getLsbD s.cfg.lsrDr.val = true → ¬ FilterDrops s.cfg s.filter rbr →
      s.length < s.cfg.capacity →
      exec i s = .next (appendedState s rbr ⟨true, true, true, .appended rbr⟩)) ∧
    (¬ LineErrorFlag s.cfg lsr → lsr.getLsbD s.cfg.lsrDr.val = false →
      exec i s = .next { s with trace := s.trace ++ [.svc ⟨true, true, false, .noData⟩] })

/-- R104, with the filter test of R107 and R108 and the append of R110: the receive-data-available path. The LSR sample
is not read and does not matter. -/
def Obligations.ReceiveDataServiceResult : Prop :=
  ∀ (i : Instr) (iir lsr rbr : Byte) (s : State),
    svcSamples i = some (iir, lsr, rbr) → s.cfg.Legal → iir.extractLsb' 1 3 = s.cfg.causeRda →
    SvcMayOccur s .rda →
    (FilterDrops s.cfg s.filter rbr →
      exec i s = .next { s with trace := s.trace ++ [.svc ⟨true, false, true, .filtered rbr⟩] }) ∧
    (¬ FilterDrops s.cfg s.filter rbr → s.length < s.cfg.capacity →
      exec i s = .next (appendedState s rbr ⟨true, false, true, .appended rbr⟩))

/-- R105 and R106: the classes THRE, CTI and OTHER take no action and read neither LSR nor RBR. -/
def Obligations.IgnoredServiceResult : Prop :=
  ∀ (i : Instr) (iir lsr rbr : Byte) (s : State),
    svcSamples i = some (iir, lsr, rbr) → s.cfg.Legal →
    (iir.extractLsb' 1 3 = s.cfg.causeThre → SvcMayOccur s .thre →
      exec i s = .next { s with trace := s.trace ++ [.svc ⟨true, false, false, .ignored .thre⟩] }) ∧
    (iir.extractLsb' 1 3 = s.cfg.causeCti → SvcMayOccur s .cti →
      exec i s = .next { s with trace := s.trace ++ [.svc ⟨true, false, false, .ignored .cti⟩] }) ∧
    (iir.extractLsb' 1 3 ∉ [s.cfg.causeRls, s.cfg.causeRda, s.cfg.causeThre, s.cfg.causeCti] →
      SvcMayOccur s .other →
      exec i s = .next { s with trace := s.trace ++ [.svc ⟨true, false, false, .ignored .other⟩] })

/-- Every SVC, in a state that allows its class, completes (R113), and its frame: it emits one outcome record, which says
IIR was read (R101); it changes nothing but storage, length and the record (R113, R188); it stores to no element but
the one at `length` (R110); and it leaves storage and length alone unless it appended (R102, R104 to R107). -/
def Obligations.SvcCompletesWithItsFrame : Prop :=
  ∀ (i : Instr) (iir lsr rbr : Byte) (s : State),
    svcSamples i = some (iir, lsr, rbr) → SvcMayOccur s (classOf s.cfg (causeOf iir)) → s.length < s.cfg.capacity →
    ∃ (t : State) (o : SvcOutcome),
      exec i s = .next t ∧ t.trace = s.trace ++ [.svc o] ∧ o.iirRead = true ∧
      t = { s with storage := t.storage, length := t.length, trace := t.trace } ∧
      (∀ a, a ≠ s.length → Memory.read t.storage a = Memory.read s.storage a ∧ t.byteAt a = s.byteAt a) ∧
      ((∀ b, o.action ≠ .appended b) → t.storage = s.storage ∧ t.length = s.length) ∧
      (∀ b, o.action = .appended b → b = rbr ∧ t.byteAt s.length = rbr ∧ o.rbrRead = true)

/-- R108's consequence, the source's second testable property: delivering a byte that the active filter drops never
changes the buffer, whichever SVC delivers it. -/
def Obligations.FilteredByteNeverGrowsBuffer : Prop :=
  ∀ (i : Instr) (iir lsr rbr : Byte) (s t : State),
    svcSamples i = some (iir, lsr, rbr) → FilterDrops s.cfg s.filter rbr → exec i s = .next t →
      t.length = s.length ∧ t.storage = s.storage

/-- R113 and R188: an SVC does not read the foreground's phase, stream, position or schedule, and leaves them as they
are: it does the same with any others. -/
def Obligations.SvcBlindToForeground : Prop :=
  ∀ (i : Instr) (s t : State) (fg : FgPhase) (stream : List Word) (index : Nat)
    (schedule recurring : List Turn),
    isSvc i = true → exec i s = .next t →
      exec i { s with fg := fg, stream := stream, index := index, schedule := schedule, recurring := recurring } =
        .next { t with fg := fg, stream := stream, index := index, schedule := schedule, recurring := recurring }

/-- R110 and R111, the source's third testable property: receive-data events that deliver at most N bytes to an empty
buffer with no filter store them in order from index 0, and leave `length` at their number, or at 0 when they are N. That
the schedule's choices are used up one a step (`t.schedule = turns`) is the model's: assumption 4. -/
def Obligations.BatchFillsInOrderAndWrapsAtCapacity : Prop :=
  ∀ (s : State) (bytes : List Byte) (turns : List Turn),
    BlockInv s → SvcMayOccur s .rda → s.filter = none → s.length = 0 → s.cfg.causeRda = 2 →
    bytes.length ≤ s.cfg.capacity →
    s.schedule = (bytes.map fun b => Turn.svc (0x00040000 ||| b.setWidth 32)) ++ turns →
    ∃ t, runSteps bytes.length s = .next t ∧ t.schedule = turns ∧
      t.length = (if bytes.length = s.cfg.capacity then 0 else bytes.length) ∧
      (∀ j, j < bytes.length → Memory.read t.storage j = bytes[j]?) ∧
      (∀ j, bytes.length ≤ j → Memory.read t.storage j = Memory.read s.storage j) ∧
      t.trace = s.trace ++ bytes.map fun b => Observation.svc ⟨true, false, true, .appended b⟩

/-! ## The foreground operations -/

/-- R140: the issue checks in their order; the first that applies raises its fault with no other effect. First, an
`Illegal` word, or an SVC word, at the head of the foreground stream raises F_ILLEGAL, whatever the other checks would
say; then, for an operation, F_REINIT, F_NOT_INIT, F_FG_BUSY and F_TX_STATE; and where none applies none is raised. -/
def Obligations.IssueChecksInOrder : Prop :=
  (∀ (s : State) (w : Word) (rest : List Word),
    CanIssue s → FgMoves s → s.stream = w :: rest →
    ((∃ e, decode s.stream = .error e) ∨ (∃ i ws, decode s.stream = .ok (i, ws) ∧ isSvc i = true)) →
      RaisesFault (step s) s .illegal w) ∧
  ∀ (i : Instr) (s : State), isSvc i = false → CanIssue s →
    (i = .init ∧ s.initialized = true → RaisesFault (exec i s) s .reInit (firstWord i)) ∧
    (i ≠ .init ∧ s.initialized = false → RaisesFault (exec i s) s .notInit (firstWord i)) ∧
    (¬ (i = .init ∧ s.initialized = true) → ¬ (i ≠ .init ∧ s.initialized = false) →
      s.fg = .writing → i ≠ .txe → RaisesFault (exec i s) s .fgBusy (firstWord i)) ∧
    (s.initialized = true → i = .txe → s.fg ≠ .writing →
      RaisesFault (exec i s) s .txState (firstWord i)) ∧
    (¬ (i = .init ∧ s.initialized = true) → ¬ (i ≠ .init ∧ s.initialized = false) →
      ¬ (s.fg = .writing ∧ i ≠ .txe) → ¬ (i = .txe ∧ s.fg ≠ .writing) →
      ∀ t, exec i s = .next t → t.fault = none)

/-- R185: a fault that a step raises leaves every field of the block as it was, emits nothing, and records the head word of
the stream and its position; in a faulted state no agent has a step, so that nothing but reset clears the fault; and such a state is not
finished. -/
def Obligations.FaultsArePreciseAndSticky : Prop :=
  (∀ (s t : State) (r : FaultRecord), step s = .next t → t.fault = some r →
    t = { s with fault := some r, stream := t.stream, index := t.index, schedule := t.schedule } ∧
    s.stream.head? = some r.word ∧ r.index = s.index ∧ FgMoves s) ∧
  (∀ s t : State, s.fault ≠ none → step s ≠ .next t) ∧
  (∀ s : State, s.fault ≠ none → ¬ Finished s)

/-- The model's choice (assumption 6, and assumption 4 for the schedule): a fault leaves the offending operation at the head
of the foreground stream, with its position, and uses up the schedule's choice. -/
def Obligations.FaultLeavesTheStream : Prop :=
  ∀ (s t : State) (r : FaultRecord), step s = .next t → t.fault = some r →
    t.stream = s.stream ∧ t.index = s.index ∧ t.schedule = s.turns.tail

/-- R186: the only faults, each with its cause and the operations that raise it, and their numbers. Stated over the
states of the invariant: in no other state could INIT meet an open bracket before the block is initialized. -/
def Obligations.FaultCodesAndTheirCauses : Prop :=
  (∀ (s t : State) (r : FaultRecord), BlockInv s → step s = .next t → t.fault = some r →
    match r.code with
    | .notInit => s.initialized = false ∧
        ∃ i ws, decode s.stream = .ok (i, ws) ∧
          ((∃ max, i = .read max) ∨ (∃ set, i = .setf set) ∨ i = .clrf ∨ i = .txb ∨ i = .txe)
    | .reInit => s.initialized = true ∧ ∃ ws, decode s.stream = .ok (.init, ws)
    | .fgBusy => s.fg = .writing ∧
        ∃ i ws, decode s.stream = .ok (i, ws) ∧
          ((∃ max, i = .read max) ∨ (∃ set, i = .setf set) ∨ i = .clrf ∨ i = .txb)
    | .txState => s.fg ≠ .writing ∧ ∃ ws, decode s.stream = .ok (.txe, ws)
    | .illegal => (∃ e, decode s.stream = .error e) ∨
        ∃ i ws, decode s.stream = .ok (i, ws) ∧ isSvc i = true) ∧
  FaultCode.notInit.number = 1 ∧ FaultCode.reInit.number = 2 ∧ FaultCode.fgBusy.number = 3 ∧
  FaultCode.txState.number = 4 ∧ FaultCode.illegal.number = 5

/-- R141: INIT sets `initialized` and the three enables and changes nothing else of the block; a second INIT raises
F_REINIT, and a word with reserved bits set F_ILLEGAL. Before it nothing has been received and no filter installed, and
after it an event of every class may occur. -/
def Obligations.InitEnablesTheThreeSources : Prop :=
  (∀ s : State, s.fault = none → s.fg = .idle → s.initialized = false →
    exec .init s = .next { s with
      initialized := true, ienRda := true, ienThre := true, ienRls := true
      stream := s.stream.drop 1, index := s.index + 1 }) ∧
  (∀ s : State, CanIssue s → s.initialized = true → RaisesFault (exec .init s) s .reInit 0x40000000) ∧
  (∀ (s t : State) (c : EventClass), BlockInv s → s.fault = none → s.initialized = false → exec .init s = .next t →
    s.length = 0 ∧ s.filter = none ∧ SvcMayOccur t c) ∧
  ReservedBitsFault 4

/-- R145: SETF installs the set, replacing any earlier filter, and changes nothing else of the block; before INIT it
raises F_NOT_INIT, inside a write bracket F_FG_BUSY, and a word with reserved bits set raises F_ILLEGAL. The empty set
discards nothing but 0x00 under NUL_MATCH. -/
def Obligations.SetfInstallsTheFilter : Prop :=
  (∀ (s : State) (set : ByteSet), s.fault = none → s.fg = .idle → s.initialized = true →
    exec (.setf set) s = .next { s with
      filter := some set, stream := s.stream.drop 9, index := s.index + 1 }) ∧
  (∀ (s : State) (set : ByteSet), CanIssue s → s.initialized = false →
    RaisesFault (exec (.setf set) s) s .notInit 0x20000000) ∧
  (∀ (s : State) (set : ByteSet), s.fault = none → s.fg = .writing → s.initialized = true →
    RaisesFault (exec (.setf set) s) s .fgBusy 0x20000000) ∧
  (∀ (cfg : Config) (b : Byte), FilterDrops cfg (some 0) b ↔ cfg.nulMatch = true ∧ b = 0) ∧
  ReservedBitsFault 2

/-- R146: CLRF unsets the filter and changes nothing else of the block; its faults as for SETF. -/
def Obligations.ClrfClearsTheFilter : Prop :=
  (∀ s : State, s.fault = none → s.fg = .idle → s.initialized = true →
    exec .clrf s = .next { s with
      filter := none, stream := s.stream.drop 1, index := s.index + 1 }) ∧
  (∀ s : State, CanIssue s → s.initialized = false → RaisesFault (exec .clrf s) s .notInit 0x30000000) ∧
  (∀ s : State, s.fault = none → s.fg = .writing → s.initialized = true →
    RaisesFault (exec .clrf s) s .fgBusy 0x30000000) ∧
  ReservedBitsFault 3

/-- R160: TXB clears `ien_rda` and opens the write bracket; inside an open bracket it raises F_FG_BUSY, before INIT
F_NOT_INIT, and a word with reserved bits set raises F_ILLEGAL. Under GATE_BY_ENABLE no RDA or CTI event may occur after it,
while an RLS event still may; and inside the bracket every operation but TXE faults. -/
def Obligations.TxbOpensTheWriteBracket : Prop :=
  (∀ s : State, s.fault = none → s.fg = .idle → s.initialized = true →
    exec .txb s = .next { s with
      ienRda := false, fg := .writing, stream := s.stream.drop 1, index := s.index + 1 }) ∧
  (∀ s : State, CanIssue s → s.initialized = false → RaisesFault (exec .txb s) s .notInit 0x50000000) ∧
  (∀ s : State, s.fault = none → s.fg = .writing → s.initialized = true →
    RaisesFault (exec .txb s) s .fgBusy 0x50000000) ∧
  (∀ s t : State, s.fault = none → s.fg = .idle → s.initialized = true → s.cfg.gateByEnable = true →
    exec .txb s = .next t →
      ¬ SvcMayOccur t .rda ∧ ¬ SvcMayOccur t .cti ∧ (s.ienRls = true → SvcMayOccur t .rls)) ∧
  (∀ (i : Instr) (s t : State), s.initialized = true → s.fg = .writing → isSvc i = false → i ≠ .txe →
    exec i s = .next t → t.fault ≠ none) ∧
  ReservedBitsFault 5

/-- R161: TXE sets `ien_rda` and closes the write bracket; with no open bracket it raises F_TX_STATE, before INIT
F_NOT_INIT, and a word with reserved bits set raises F_ILLEGAL. -/
def Obligations.TxeClosesTheWriteBracket : Prop :=
  (∀ s : State, s.fault = none → s.fg = .writing → s.initialized = true →
    exec .txe s = .next { s with
      ienRda := true, fg := .idle, stream := s.stream.drop 1, index := s.index + 1 }) ∧
  (∀ s : State, CanIssue s → s.initialized = false → RaisesFault (exec .txe s) s .notInit 0x60000000) ∧
  (∀ s : State, s.fault = none → s.fg = .idle → s.initialized = true →
    RaisesFault (exec .txe s) s .txState 0x60000000) ∧
  ReservedBitsFault 6

/-- The frame of the foreground operations READ, SETF, CLRF, INIT, TXB and TXE: storage (every byte of it), the
parameters and the choices to come never change; the filter changes only by SETF and CLRF (R25), `initialized` and the other
two enables only by INIT (R26, R27), `ien_rda` only by INIT, TXB and TXE (R27), the phase only by READ, TXB and TXE
(R29), and `length` and the trace only by READ (R22). -/
def Obligations.ForegroundOperationFrame : Prop :=
  ∀ (i : Instr) (s t : State), isSvc i = false → exec i s = .next t →
    t.cfg = s.cfg ∧ t.schedule = s.schedule ∧ t.recurring = s.recurring ∧ t.storage = s.storage ∧ (∀ a, t.byteAt a = s.byteAt a) ∧
    (i ≠ .clrf → (∀ set, i ≠ .setf set) → t.filter = s.filter) ∧
    (i ≠ .init → t.initialized = s.initialized ∧ t.ienThre = s.ienThre ∧ t.ienRls = s.ienRls) ∧
    (i ≠ .init → i ≠ .txb → i ≠ .txe → t.ienRda = s.ienRda) ∧
    (i ≠ .txb → i ≠ .txe → (∀ max, i ≠ .read max) → t.fg = s.fg) ∧
    ((∀ max, i ≠ .read max) → t.length = s.length ∧ t.trace = s.trace)

/-! ## READ -/

/-- R151: a READ of an empty buffer answers zero bytes at once and leaves the block unchanged, whatever the drain's
settings. -/
def Obligations.EmptyReadChangesNothing : Prop :=
  ∀ (s : State) (max : Nat), s.fault = none → s.fg = .idle → s.initialized = true → s.length = 0 →
    exec (.read max) s = .next { s with
      trace := s.trace ++ [.readResult 0 []], stream := s.stream.drop 1, index := s.index + 1 }

/-- R150: the issue step of a READ without HARDENED_DRAIN, on a buffer that is not empty, and its faults: before INIT
F_NOT_INIT, inside a write bracket F_FG_BUSY, and with reserved bits set F_ILLEGAL. -/
def Obligations.ReadIssueStartsTheDrain : Prop :=
  (∀ (s : State) (max : Nat), s.fault = none → s.fg = .idle → s.initialized = true →
    s.cfg.hardenedDrain = false → s.length = 0 →
    exec (.read max) s = .next { s with
      trace := s.trace ++ [.readResult 0 []], stream := s.stream.drop 1, index := s.index + 1 }) ∧
  (∀ (s : State) (max : Nat), s.fault = none → s.fg = .idle → s.initialized = true →
    s.cfg.hardenedDrain = false → s.length ≠ 0 → s.cfg.readLenSample = .once →
    exec (.read max) s = .next { s with
      fg := if min max s.length = 0 then .rdReset [] else .rdCopy (min max s.length) 0 []
      stream := s.stream.drop 1, index := s.index + 1 }) ∧
  (∀ (s : State) (max : Nat), s.fault = none → s.fg = .idle → s.initialized = true →
    s.cfg.hardenedDrain = false → s.length ≠ 0 → s.cfg.readLenSample = .atCopy →
    exec (.read max) s = .next { s with
      fg := .rdCount max, stream := s.stream.drop 1, index := s.index + 1 }) ∧
  (∀ (s : State) (max : Nat), CanIssue s → s.initialized = false → max ≤ 65535 →
    RaisesFault (exec (.read max) s) s .notInit (0x10000000 ||| BitVec.ofNat 32 max)) ∧
  (∀ (s : State) (max : Nat), s.fault = none → s.fg = .writing → s.initialized = true → max ≤ 65535 →
    RaisesFault (exec (.read max) s) s .fgBusy (0x10000000 ||| BitVec.ofNat 32 max)) ∧
  (∀ (s : State) (w : Word) (rest : List Word), CanIssue s → FgMoves s → s.stream = w :: rest →
    opField w = 1#4 → w.extractLsb' 16 12 ≠ 0#12 →
    RaisesFault (step s) s .illegal w)

/-- R156: under HARDENED_DRAIN the whole drain is one step: the copied bytes are the first `min(max, length)` elements,
`length` becomes 0, and an empty buffer changes nothing; READ_LEN_SAMPLE makes no difference. -/
def Obligations.HardenedReadIsOneStep : Prop :=
  ∀ (s : State) (max : Nat), s.fault = none → s.fg = .idle → s.initialized = true →
    s.cfg.hardenedDrain = true → s.length < s.cfg.capacity →
    exec (.read max) s = .next { s with
      length := 0
      trace := s.trace ++ [.readResult (min max s.length) ((List.range (min max s.length)).map s.byteAt)]
      stream := s.stream.drop 1, index := s.index + 1 }

/-- R152: the CNT micro-step. -/
def Obligations.CountStepReadsLengthAgain : Prop :=
  ∀ (s : State) (max : Nat), s.fault = none → FgMoves s → s.fg = .rdCount max →
    Moves (step s) { s with
      fg := if min max s.length = 0 then .rdReset [] else .rdCopy (min max s.length) 0 [] }

/-- R153: the CPY micro-step copies the byte that element `k` holds at this step. -/
def Obligations.CopyStepReadsNextElement : Prop :=
  ∀ (s : State) (n k : Nat) (out : List Byte) (b : Byte),
    s.fault = none → FgMoves s → s.fg = .rdCopy n k out → k < n → n < s.cfg.capacity → s.byteAt k = b →
    Moves (step s) { s with
      fg := if k + 1 = n then .rdReset (out ++ [b]) else .rdCopy n (k + 1) (out ++ [b]) }

/-- R155: the RST micro-step sets `length` to 0 whatever it is, emits the result and ends the READ; storage is not
cleared. -/
def Obligations.ResetStepEmptiesTheBuffer : Prop :=
  ∀ (s : State) (out : List Byte), s.fault = none → FgMoves s → s.fg = .rdReset out →
    Moves (step s) { s with
      length := 0, fg := .idle
      trace := s.trace ++ [.readResult out.length out] }

/-- R157 with no SVC interleaved, over every setting of the drain (R150, R152, R153, R155, R156): a READ of a buffer that
is not empty returns the `min(max, length)` oldest bytes in arrival order, and the remainder is lost: `length` is 0
afterwards and nothing else of the block has changed. The atomic drain takes one step; the other settings one step
per byte, CHK and RST, and CNT under AtCopy; all end in the same state. With no choice to come the foreground moves, which
is the model's: assumption 4. -/
def Obligations.UninterruptedDrainReturnsOldestBytes : Prop :=
  ∀ (s : State) (max : Nat) (rest : List Word),
    BlockInv s → s.fault = none → s.initialized = true → s.fg = .idle → s.turns = [] → s.length ≠ 0 →
    s.stream = encode (.read max) ++ rest → max ≤ 65535 →
    runSteps
      (if s.cfg.hardenedDrain = true then 1
       else min max s.length + 2 + (if s.cfg.readLenSample = .atCopy then 1 else 0)) s =
      .next { s with
        length := 0
        trace := s.trace ++ [.readResult (min max s.length) ((List.range (min max s.length)).map s.byteAt)]
        stream := rest, index := s.index + 1 }

/-- The source's first testable property with the bound of conflict C2: from an empty buffer with no filter, `d <= N-1`
bytes delivered by receive-data events and then a READ of at least `d`, with no SVC interleaved, return exactly the
delivered bytes in arrival order and leave the buffer empty. That the choices are used up one a step, and that the
foreground moves when none is left, is the model's: assumption 4. -/
def Obligations.DeliveredBytesComeBackInOrder : Prop :=
  ∀ (s : State) (bytes : List Byte) (max : Nat) (rest : List Word),
    BlockInv s → s.fault = none → s.initialized = true → s.fg = .idle → s.filter = none → s.length = 0 →
    s.cfg.causeRda = 2 → bytes ≠ [] → bytes.length < s.cfg.capacity → bytes.length ≤ max → max ≤ 65535 →
    s.schedule = (bytes.map fun b => Turn.svc (0x00040000 ||| b.setWidth 32)) → s.recurring = [] →
    s.stream = encode (.read max) ++ rest →
    ∃ (steps : Nat) (t : State), runSteps steps s = .next t ∧
      t.trace = s.trace ++ (bytes.map fun b => Observation.svc ⟨true, false, true, .appended b⟩) ++
        [.readResult bytes.length bytes] ∧
      t.length = 0 ∧ t.fg = .idle ∧ t.stream = rest

/-- R224 and R157(e): a drain never returns more than N-1 bytes, so never the last element, and the count it reports is
the number of bytes it returns; and no copy step is at the last element. -/
def Obligations.DrainReturnsFewerThanCapacity : Prop :=
  (∀ (s t : State) (count : Nat) (bytes : List Byte), BlockInv s → step s = .next t →
    t.trace = s.trace ++ [.readResult count bytes] → count = bytes.length ∧ count < s.cfg.capacity) ∧
  (∀ (s t : State) (n k : Nat) (out : List Byte), BlockInv s → s.fg = .rdCopy n k out → FgMoves s →
    step s = .next t → k + 1 < s.cfg.capacity)

/-- R213: what an element held at reset never reaches a drain: the byte that a copy step takes is one that an append
stored, and so is every byte that the atomic drain takes. -/
def Obligations.DrainReadsOnlyStoredBytes : Prop :=
  (∀ (s : State) (n k : Nat) (out : List Byte), BlockInv s → s.fault = none → FgMoves s → s.fg = .rdCopy n k out →
    ∃ b t, Memory.read s.storage k = some b ∧ step s = .next t ∧
      (t.fg = .rdReset (out ++ [b]) ∨ t.fg = .rdCopy n (k + 1) (out ++ [b]))) ∧
  (∀ (s : State) (max : Nat), BlockInv s → s.fault = none → s.initialized = true → s.fg = .idle →
    s.cfg.hardenedDrain = true → s.length ≠ 0 →
    ∃ bytes t, exec (.read max) s = .next t ∧ t.trace = s.trace ++ [.readResult bytes.length bytes] ∧
      bytes.map some = (List.range (min max s.length)).map (Memory.read s.storage))

/-- R24: the elements from `length` on are stale: the atomic drain and every other foreground operation do the same
whatever those elements hold. -/
def Obligations.ForegroundOperationsBlindToStaleElements : Prop :=
  ∀ (i : Instr) (s t : State) (storage : Memory),
    isSvc i = false → exec i s = .next t →
    (∀ a, a < s.length → (Memory.read storage a).getD (Config.storageAtReset a) = s.byteAt a) →
      exec i { s with storage := storage } = .next { t with storage := storage }

/-! ## Whole-machine rules and hazards -/

/-- R26: `initialized` is false at reset, a step makes it true exactly when it issues INIT, and no step clears it. -/
def Obligations.OnlyInitInitializes : Prop :=
  State.reset.initialized = false ∧
  ∀ s t : State, step s = .next t →
    (t.initialized = true ↔
      s.initialized = true ∨
        (FgMoves s ∧ s.fg = .idle ∧ ∃ ws, decode s.stream = .ok (.init, ws)))

/-- R25: only SETF and CLRF write the filter, whatever agent moves. -/
def Obligations.OnlySetfAndClrfWriteTheFilter : Prop :=
  ∀ s t : State, step s = .next t → t.filter ≠ s.filter →
    FgMoves s ∧ ∃ i ws, decode s.stream = .ok (i, ws) ∧
      ((i = .clrf ∧ t.filter = none) ∨ ∃ set, i = .setf set ∧ t.filter = some set)

/-- R27: only INIT, TXB and TXE write the three enables, and of them only `ien_rda` is ever cleared. -/
def Obligations.OnlyInitAndTheBracketWriteTheEnables : Prop :=
  ∀ s t : State, step s = .next t →
    (s.ienThre = true → t.ienThre = true) ∧ (s.ienRls = true → t.ienRls = true) ∧
    ((t.ienRda, t.ienThre, t.ienRls) ≠ (s.ienRda, s.ienThre, s.ienRls) →
      FgMoves s ∧ ∃ i ws, decode s.stream = .ok (i, ws) ∧ (i = .init ∨ i = .txb ∨ i = .txe))

/-- R21 and R22: only an SVC writes storage, and only at index `length`; an SVC leaves `length`, adds one to it or wraps
it to 0, and a foreground step leaves it or sets it to 0. -/
def Obligations.OnlyAppendWritesStorage : Prop :=
  ∀ s t : State, step s = .next t →
    (FgMoves s → t.storage = s.storage ∧ (t.length = s.length ∨ t.length = 0)) ∧
    (¬ FgMoves s →
      (∀ a, a ≠ s.length → Memory.read t.storage a = Memory.read s.storage a) ∧
      ((t.length = s.length ∧ t.storage = s.storage) ∨
        t.length = (if s.length + 1 = s.cfg.capacity then 0 else s.length + 1)))

/-- R12, R13, R184 and R200: a step uses up one choice of the schedule, never changes the parameters, and appends at most
one record to the trace: an SVC exactly one outcome, a foreground step no outcome. The schedule is the model's:
assumption 4. -/
def Obligations.StepAppendsAtMostOneRecord : Prop :=
  ∀ s t : State, step s = .next t →
    t.cfg = s.cfg ∧ t.schedule = s.turns.tail ∧ t.recurring = s.recurring ∧
    (FgMoves s → t.trace = s.trace ∨ ∃ count bytes, t.trace = s.trace ++ [.readResult count bytes]) ∧
    (¬ FgMoves s → ∃ o, t.trace = s.trace ++ [.svc o])

/-- R222: inside the write bracket, under GATE_BY_ENABLE, an RDA or CTI event has no step, while an RLS event still has
one: with data ready, no error and no filter it appends its byte. -/
def Obligations.WriteBracketHoldsBackReceiveData : Prop :=
  ∀ (s : State) (w : Word) (turns : List Turn),
    BlockInv s → s.fault = none → s.fg = .writing → s.cfg.gateByEnable = true → s.turns = .svc w :: turns →
    (classOf s.cfg (w.extractLsb' 17 3) = .rda ∨ classOf s.cfg (w.extractLsb' 17 3) = .cti →
      ∀ t, step s ≠ .next t) ∧
    (w.extractLsb' 24 8 = 0#8 → w.extractLsb' 17 3 = s.cfg.causeRls → ¬ LineErrorFlag s.cfg (w.extractLsb' 8 8) →
      (w.extractLsb' 8 8).getLsbD s.cfg.lsrDr.val = true → s.filter = none →
      step s = .next (appendedState { s with schedule := turns } (w.extractLsb' 0 8)
        ⟨true, true, true, .appended (w.extractLsb' 0 8)⟩))

/-- R220, the drain race: a byte that a receive-data event appends after the copy is done and before RST is not in the
result, and is lost, because RST sets `length` to 0 (the schedule is the model's: assumption 4). -/
def Obligations.ByteAppendedBeforeResetIsLost : Prop :=
  ∀ (s : State) (out : List Byte) (b : Byte) (turns : List Turn),
    BlockInv s → s.fault = none → SvcMayOccur s .rda → s.filter = none → s.cfg.causeRda = 2 → s.fg = .rdReset out →
    s.schedule = .svc (0x00040000 ||| b.setWidth 32) :: .fg :: turns →
    ∃ t, runSteps 2 s = .next t ∧
      t.trace = s.trace ++ [.svc ⟨true, false, true, .appended b⟩, .readResult out.length out] ∧
      Memory.read t.storage s.length = some b ∧ t.length = 0 ∧ t.fg = .idle ∧ t.schedule = turns

/-- R220 under READ_LEN_SAMPLE = Once: an append that comes after CHK and does not wrap lands at or above the copy
count, so no later copy step of this READ reads it: if `length` has not wrapped below `n`, a byte stored during the copy
leaves every element that the copy reads as it was. -/
def Obligations.AppendDuringCopyLandsAboveTheCount : Prop :=
  ∀ (s t : State) (n k : Nat) (out : List Byte) (w : Word) (turns : List Turn),
    BlockInv s → s.fg = .rdCopy n k out → n ≤ s.length → s.turns = .svc w :: turns → step s = .next t →
      t.fg = .rdCopy n k out ∧ (∀ a, a < n → t.byteAt a = s.byteAt a) ∧ (n ≤ t.length ∨ t.length = 0)

/-- R221, the torn drain: with the buffer one byte below capacity and a copy about to start, two receive-data events wrap
`length` and overwrite index 0, and the copy step returns the new byte. -/
def Obligations.TornDrainReturnsTheNewByte : Prop :=
  ∀ (s : State) (n : Nat) (b c : Byte) (turns : List Turn),
    BlockInv s → s.fault = none → SvcMayOccur s .rda → s.filter = none → s.cfg.causeRda = 2 →
    s.fg = .rdCopy n 0 [] → s.length + 1 = s.cfg.capacity →
    s.schedule = .svc (0x00040000 ||| b.setWidth 32) :: .svc (0x00040000 ||| c.setWidth 32) :: .fg :: turns →
    ∃ t, runSteps 3 s = .next t ∧
      (t.fg = .rdReset [c] ∨ t.fg = .rdCopy n 1 [c]) ∧ t.length = 1

/-- R200: in a finished run the foreground agent has no step, and any SVC that may occur still has one. -/
def Obligations.FinishedRunHasNoForegroundStep : Prop :=
  (∀ s : State, Finished s → FgMoves s → step s = .fault .fgFinished) ∧
  (∀ (s : State) (w : Word) (turns : List Turn), BlockInv s → Finished s → s.turns = .svc w :: turns →
    w.extractLsb' 24 8 = 0#8 → SvcMayOccur s (classOf s.cfg (w.extractLsb' 17 3)) → ∃ t, step s = .next t)

/-! ## Executions (R184) -/

/-- R184: the runs of `step` are the executions. The first `k` steps of any execution, finite or without end, are the run
of `step` under its first `k` choices; and every run of `step` under a list of choices is an execution. The schedule, in
which `step` finds the choices, is the model's: assumption 4. -/
def Obligations.ExecutionsAreStepRuns : Prop :=
  (∀ (s : State) (len : Option Nat) (choice : Nat → Turn) (run : Nat → State) (k : Nat),
    ExecutionFrom s len choice run → (∀ j, len = some j → k ≤ j) →
      runSteps k { s with schedule := (List.range k).map choice } = .next { run k with schedule := [] }) ∧
  (∀ (s t : State) (turns : List Turn), runSteps turns.length { s with schedule := turns } = .next t →
    ∃ run, ExecutionFrom s (some turns.length) (fun n => turns.getD n .fg) run ∧
      t = { run turns.length with schedule := [] })

/-- R184 and R225: the environment may deliver SVCs without end, in any order, and the foreground then makes no progress:
for every endless sequence of SVC words whose classes may occur there is an execution without end that takes them, in
which the foreground's phase, stream and position never change. The second part says it from reset, where the only
foreground step is INIT, after which a word of any class may occur. -/
def Obligations.EnvironmentMayDeliverWithoutEnd : Prop :=
  (∀ (s : State) (event : Nat → Word), BlockInv s →
    (∀ n, (event n).extractLsb' 24 8 = 0#8 ∧ SvcMayOccur s (classOf s.cfg ((event n).extractLsb' 17 3))) →
      ∃ run, ExecutionFrom s none (fun n => .svc (event n)) run ∧
        ∀ n, (run n).fg = s.fg ∧ (run n).stream = s.stream ∧ (run n).index = s.index ∧
          (run n).trace.length = s.trace.length + n) ∧
  (∀ (cfg : Config) (program : List Word) (event : Nat → Word), cfg.Legal →
    (∀ n, (event n).extractLsb' 24 8 = 0#8) →
      ∃ run, Execution cfg (0x40000000 :: program) none (fun n => if n = 0 then .fg else .svc (event n)) run ∧
        ∀ n, 1 ≤ n → (run n).stream = program ∧ (run n).index = 1 ∧ (run n).trace.length + 1 = n)

/-- R184 in `step`: choices that recur without end and deliver only SVC words whose classes may occur leave the foreground
where it is for ever. However many steps are taken, there is a next state, and the foreground's phase, stream and position
have not changed. `recurring` is the model's: assumption 4. -/
def Obligations.RecurringEventsStarveTheForeground : Prop :=
  ∀ (s : State) (events : List Word) (k : Nat), BlockInv s → events ≠ [] →
    (∀ w ∈ events, w.extractLsb' 24 8 = 0#8 ∧ SvcMayOccur s (classOf s.cfg (w.extractLsb' 17 3))) →
    s.schedule = [] → s.recurring = events.map Turn.svc →
      ∃ t, runSteps k s = .next t ∧ t.fg = s.fg ∧ t.stream = s.stream ∧ t.index = s.index ∧
        t.trace.length = s.trace.length + k
end

