-- ==== Sys2Proof/Laws/Decode.lean ====
section
/-! SUPPORT. The fields of encoded words, and which operation decoding answers. -/

namespace Sys2Proof

open Sys2Proof.Machine

/-! ### Fields of a format S word (R72) -/

theorem encodeSvc_head (iir lsr rbr : Byte) : (encodeSvc iir lsr rbr).extractLsb' 24 8 = 0#8 := by
  refine BitVec.eq_of_getLsbD_eq fun i hi => ?_
  interval_cases i <;> simp [encodeSvc]

theorem encodeSvc_iir (iir lsr rbr : Byte) : (encodeSvc iir lsr rbr).extractLsb' 16 8 = iir := by
  refine BitVec.eq_of_getLsbD_eq fun i hi => ?_
  interval_cases i <;> simp [encodeSvc]

theorem encodeSvc_lsr (iir lsr rbr : Byte) : (encodeSvc iir lsr rbr).extractLsb' 8 8 = lsr := by
  refine BitVec.eq_of_getLsbD_eq fun i hi => ?_
  interval_cases i <;> simp [encodeSvc]

theorem encodeSvc_rbr (iir lsr rbr : Byte) : (encodeSvc iir lsr rbr).extractLsb' 0 8 = rbr := by
  refine BitVec.eq_of_getLsbD_eq fun i hi => ?_
  interval_cases i <;> simp [encodeSvc]

theorem iirOf_hi (h : BitVec 4) (c : BitVec 3) (l : BitVec 1) : (iirOf h c l).extractLsb' 4 4 = h := by
  refine BitVec.eq_of_getLsbD_eq fun i hi => ?_
  interval_cases i <;> simp [iirOf]

@[simp] theorem causeOf_iirOf (h : BitVec 4) (c : BitVec 3) (l : BitVec 1) : causeOf (iirOf h c l) = c := by
  refine BitVec.eq_of_getLsbD_eq fun i hi => ?_
  interval_cases i <;> simp [iirOf, causeOf]

theorem iirOf_lo (h : BitVec 4) (c : BitVec 3) (l : BitVec 1) : (iirOf h c l).extractLsb' 0 1 = l := by
  refine BitVec.eq_of_getLsbD_eq fun i hi => ?_
  obtain rfl : i = 0 := by omega
  simp [iirOf]

/-- A field of a field is a field. -/
theorem extract_extract (w : Word) (a la b lb : Nat) (h : b + lb ≤ la) :
    (w.extractLsb' a la).extractLsb' b lb = w.extractLsb' (a + b) lb := by
  refine BitVec.eq_of_getLsbD_eq fun i hi => ?_
  have : b + i < la := by omega
  simp [hi, this, Nat.add_assoc]

theorem iirOf_extract (x : Byte) : iirOf (x.extractLsb' 4 4) (x.extractLsb' 1 3) (x.extractLsb' 0 1) = x := by
  refine BitVec.eq_of_getLsbD_eq fun i hi => ?_
  interval_cases i <;> simp [iirOf]

/-- A word whose top eight bits are zero is the format S word of its samples. -/
theorem eq_encodeSvc {w : Word} (h : w.extractLsb' 24 8 = 0#8) :
    w = encodeSvc (w.extractLsb' 16 8) (w.extractLsb' 8 8) (w.extractLsb' 0 8) := by
  have bit (j : Nat) (hj : j < 8) : w.getLsbD (24 + j) = false := by
    have := congrArg (fun x => x.getLsbD j) h
    simpa [hj] using this
  have h0 := bit 0 (by omega)
  have h1 := bit 1 (by omega)
  have h2 := bit 2 (by omega)
  have h3 := bit 3 (by omega)
  have h4 := bit 4 (by omega)
  have h5 := bit 5 (by omega)
  have h6 := bit 6 (by omega)
  have h7 := bit 7 (by omega)
  refine BitVec.eq_of_getLsbD_eq fun i hi => ?_
  interval_cases i <;> (simp [encodeSvc]; try assumption)

/-- The samples of a decoded SVC word are the word's (R72, R79). -/
theorem svcSamples_decodeSvc (w : Word) :
    svcSamples (decodeSvc w) = some (w.extractLsb' 16 8, w.extractLsb' 8 8, w.extractLsb' 0 8) := by
  have key := iirOf_extract (w.extractLsb' 16 8)
  rw [extract_extract _ _ _ _ _ (by omega), extract_extract _ _ _ _ _ (by omega),
    extract_extract _ _ _ _ _ (by omega)] at key
  simp only [Nat.reduceAdd, Nat.add_zero] at key
  have lt := (w.extractLsb' 17 3).isLt
  have val : w.extractLsb' 17 3 = BitVec.ofNat 3 (w.extractLsb' 17 3).toNat := by
    rw [BitVec.ofNat_toNat, BitVec.setWidth_eq]
  unfold decodeSvc
  generalize hc : (w.extractLsb' 17 3).toNat = c at *
  rw [val] at key
  interval_cases c <;> simpa [svcSamples] using key

theorem isSvc_decodeSvc (w : Word) : isSvc (decodeSvc w) = true := by simp [isSvc, svcSamples_decodeSvc]

theorem isSvc_of_samples {i : Instr} {x : Byte × Byte × Byte} (h : svcSamples i = some x) : isSvc i = true := by
  simp [isSvc, h]

theorem wf_of_isSvc {i : Instr} (h : isSvc i = true) : i.wf = true := by
  cases i <;> first | rfl | simp [isSvc, svcSamples] at h

/-- The word of an SVC is the format S word of its samples. -/
theorem encode_of_samples {i : Instr} {iir lsr rbr : Byte} (h : svcSamples i = some (iir, lsr, rbr)) :
    encode i = [encodeSvc iir lsr rbr] := by
  cases i <;> simp [svcSamples] at h <;> obtain ⟨rfl, rfl, rfl⟩ := h <;> rfl

/-- Two SVCs with the same samples are the same. -/
theorem eq_of_samples {i j : Instr} {x : Byte × Byte × Byte} (hi : svcSamples i = some x)
    (hj : svcSamples j = some x) : i = j := by
  obtain ⟨iir, lsr, rbr⟩ := x
  have cause (k : Instr) (hk : svcSamples k = some (iir, lsr, rbr)) : k = decodeSvc (encodeSvc iir lsr rbr) := by
    have e17 : (encodeSvc iir lsr rbr).extractLsb' 17 3 = causeOf iir := by
      rw [show (17 : Nat) = 16 + 1 from rfl, ← extract_extract _ _ 8 _ _ (by omega), encodeSvc_iir]; rfl
    have e20 : (encodeSvc iir lsr rbr).extractLsb' 20 4 = iir.extractLsb' 4 4 := by
      rw [show (20 : Nat) = 16 + 4 from rfl, ← extract_extract _ _ 8 _ _ (by omega), encodeSvc_iir]
    have e16 : (encodeSvc iir lsr rbr).extractLsb' 16 1 = iir.extractLsb' 0 1 := by
      rw [show (16 : Nat) = 16 + 0 from rfl, ← extract_extract _ _ 8 _ _ (by omega), encodeSvc_iir]
    unfold decodeSvc
    rw [e17, e20, e16, encodeSvc_lsr, encodeSvc_rbr]
    cases k <;> simp [svcSamples] at hk <;> obtain ⟨rfl, rfl, rfl⟩ := hk <;>
      simp [iirOf_hi, iirOf_lo]
  rw [cause i hi, cause j hj]

/-! ### Sets and their words (R77) -/

/-- Bit `32 q + r` of a mask is bit `r` of payload word `q`. -/
theorem getLsbD_maskOfWords (p0 p1 p2 p3 p4 p5 p6 p7 : Word) (q r : Nat) (hq : q < 8) (hr : r < 32) :
    (maskOfWords p0 p1 p2 p3 p4 p5 p6 p7).getLsbD (32 * q + r) =
      ([p0, p1, p2, p3, p4, p5, p6, p7].getD q 0).getLsbD r := by
  have low (p : Word) (n : Nat) : p.getLsbD (32 + n) = false := BitVec.getLsbD_of_ge p _ (by omega)
  have shifted (p : Word) (c : Nat) (hc : c < 8) : (p.setWidth 256 <<< (32 * c)).getLsbD (32 * q + r) = if c = q then p.getLsbD r else false := by
    rw [BitVec.getLsbD_shiftLeft, BitVec.getLsbD_setWidth]
    by_cases h : c = q
    · subst h
      have e : 32 * c + r - 32 * c = r := by omega
      have l : 32 * c + r < 256 := by omega
      simp [e, l, show r < 256 by omega]
    · by_cases l : q < c
      · simp [h, show 32 * q + r < 32 * c by omega]
      · rw [BitVec.getLsbD_of_ge p _ (by omega)]; simp [h]
  have s0 := shifted p0 0 (by omega)
  have s1 := shifted p1 1 (by omega)
  have s2 := shifted p2 2 (by omega)
  have s3 := shifted p3 3 (by omega)
  have s4 := shifted p4 4 (by omega)
  have s5 := shifted p5 5 (by omega)
  have s6 := shifted p6 6 (by omega)
  have s7 := shifted p7 7 (by omega)
  simp only [Nat.reduceMul, BitVec.shiftLeft_zero] at s0 s1 s2 s3 s4 s5 s6 s7
  simp only [maskOfWords, BitVec.getLsbD_or, s0, s1, s2, s3, s4, s5, s6, s7]
  interval_cases q <;> simp

theorem maskOfWords_wordsOfMask (m : ByteSet) :
    maskOfWords (m.extractLsb' 0 32) (m.extractLsb' 32 32) (m.extractLsb' 64 32) (m.extractLsb' 96 32)
      (m.extractLsb' 128 32) (m.extractLsb' 160 32) (m.extractLsb' 192 32) (m.extractLsb' 224 32) = m := by
  refine BitVec.eq_of_getLsbD_eq fun i hi => ?_
  have hr : i % 32 < 32 := by omega
  have hq : i / 32 < 8 := by omega
  rw [← Nat.div_add_mod i 32, getLsbD_maskOfWords _ _ _ _ _ _ _ _ _ _ hq hr]
  generalize i / 32 = q at *
  interval_cases q <;> simp [hr, Nat.add_comm]

theorem wordsOfMask_maskOfWords (p0 p1 p2 p3 p4 p5 p6 p7 : Word) :
    wordsOfMask (maskOfWords p0 p1 p2 p3 p4 p5 p6 p7) = [p0, p1, p2, p3, p4, p5, p6, p7] := by
  have word (q : Nat) (hq : q < 8) : (maskOfWords p0 p1 p2 p3 p4 p5 p6 p7).extractLsb' (32 * q) 32 =
      [p0, p1, p2, p3, p4, p5, p6, p7].getD q 0 := by
    refine BitVec.eq_of_getLsbD_eq fun i hi => ?_
    rw [BitVec.getLsbD_extractLsb', getLsbD_maskOfWords _ _ _ _ _ _ _ _ q i hq hi]
    simp [hi]
  have w0 := word 0 (by omega)
  have w1 := word 1 (by omega)
  have w2 := word 2 (by omega)
  have w3 := word 3 (by omega)
  have w4 := word 4 (by omega)
  have w5 := word 5 (by omega)
  have w6 := word 6 (by omega)
  have w7 := word 7 (by omega)
  simp only [Nat.reduceMul] at w0 w1 w2 w3 w4 w5 w6 w7
  simp [wordsOfMask, w0, w1, w2, w3, w4, w5, w6, w7]
/-! ### Decoding by OP -/

theorem extract_le_16 (w : Word) : (w.extractLsb' 0 16).toNat ≤ 65535 := by
  have := (w.extractLsb' 0 16).isLt
  omega

/-- The word of a READ by its fields (R73). -/
theorem eq_readWord {w : Word} (hop : opField w = 1#4) (hres : w.extractLsb' 16 12 = 0#12) :
    w = 0x10000000 ||| (w.extractLsb' 0 16).setWidth 32 := by
  refine BitVec.eq_of_getLsbD_eq fun i hi => ?_
  have op (j : Nat) : (opField w).getLsbD j = (1#4).getLsbD j := by rw [hop]
  have res (j : Nat) : (w.extractLsb' 16 12).getLsbD j = (0#12).getLsbD j := by rw [hres]
  simp only [opField, BitVec.getLsbD_extractLsb'] at op res
  by_cases l : i < 16
  · have := Nat.le_of_lt_succ l
    interval_cases i <;> simp
  · by_cases l' : i < 28
    · have := res (i - 16)
      rw [show 16 + (i - 16) = i by omega] at this
      interval_cases i <;> simp_all
    · have := op (i - 28)
      rw [show 28 + (i - 28) = i by omega] at this
      interval_cases i <;> simp_all

/-- A word of format Z or F by its fields (R74, R75). -/
theorem eq_opWord {w : Word} {op : BitVec 4} (hop : opField w = op) (hres : w.extractLsb' 0 28 = 0#28) :
    w = op.setWidth 32 <<< 28 := by
  refine BitVec.eq_of_getLsbD_eq fun i hi => ?_
  have hop' (j : Nat) : (opField w).getLsbD j = op.getLsbD j := by rw [hop]
  have res (j : Nat) : (w.extractLsb' 0 28).getLsbD j = (0#28).getLsbD j := by rw [hres]
  simp only [opField, BitVec.getLsbD_extractLsb'] at hop' res
  rw [BitVec.getLsbD_shiftLeft, BitVec.getLsbD_setWidth]
  by_cases l : i < 28
  · have := res i
    simp [l] at this
    simp [l, this]
  · have := hop' (i - 28)
    rw [show 28 + (i - 28) = i by omega] at this
    have l4 : i - 28 < 4 := by omega
    have l32 : i - 28 < 32 := by omega
    simp only [l4, decide_true, Bool.true_and] at this
    rw [this]
    simp [l, hi, l32]

theorem decode_svc {w : Word} (h : w.extractLsb' 24 8 = 0#8) (rest : List Word) :
    decode (w :: rest) = .ok (decodeSvc w, rest) := by
  have e1 : opField w = (w.extractLsb' 24 8).extractLsb' 4 4 := (extract_extract w 24 8 4 4 (by omega)).symm
  have e2 : w.extractLsb' 24 4 = (w.extractLsb' 24 8).extractLsb' 0 4 := (extract_extract w 24 8 0 4 (by omega)).symm
  rw [h] at e1 e2
  simp [decode, e1, e2]

theorem head_zero {w : Word} (h1 : opField w = 0#4) (h2 : w.extractLsb' 24 4 = 0#4) : w.extractLsb' 24 8 = 0#8 := by
  refine BitVec.eq_of_getLsbD_eq fun i hi => ?_
  have op (j : Nat) : (opField w).getLsbD j = (0#4).getLsbD j := by rw [h1]
  have res (j : Nat) : (w.extractLsb' 24 4).getLsbD j = (0#4).getLsbD j := by rw [h2]
  simp only [opField, BitVec.getLsbD_extractLsb'] at op res
  by_cases l : i < 4
  · simpa [hi, l] using res i
  · have := op (i - 4)
    rw [show 28 + (i - 4) = 24 + i by omega] at this
    simpa [hi, show i - 4 < 4 by omega] using this

/-- Everything decoding a stream with a first word can answer (R78). -/
theorem decode_cons_cases {w : Word} {rest ws : List Word} {i : Instr} (h : decode (w :: rest) = .ok (i, ws)) :
    (w.extractLsb' 24 8 = 0#8 ∧ i = decodeSvc w ∧ ws = rest) ∨
    (opField w = 1#4 ∧ w.extractLsb' 16 12 = 0#12 ∧ i = .read (w.extractLsb' 0 16).toNat ∧ ws = rest) ∨
    (opField w = 2#4 ∧ w.extractLsb' 0 28 = 0#28 ∧ decodeSetf rest = .ok (i, ws)) ∨
    (w.extractLsb' 0 28 = 0#28 ∧ ws = rest ∧
      ((opField w = 3#4 ∧ i = .clrf) ∨ (opField w = 4#4 ∧ i = .init) ∨ (opField w = 5#4 ∧ i = .txb) ∨
        (opField w = 6#4 ∧ i = .txe))) := by
  have val : opField w = BitVec.ofNat 4 (opField w).toNat := by rw [BitVec.ofNat_toNat, BitVec.setWidth_eq]
  simp only [decode] at h
  generalize hn : (opField w).toNat = n at h val
  match n with
  | 0 =>
    simp only at h
    split at h
    · rename_i hz
      cases h
      exact .inl ⟨head_zero val hz, rfl, rfl⟩
    · cases h
  | 1 =>
    simp only at h
    split at h
    · rename_i hz
      cases h
      exact .inr (.inl ⟨val, hz, rfl, rfl⟩)
    · cases h
  | 2 =>
    simp only at h
    split at h
    · rename_i hz
      exact .inr (.inr (.inl ⟨val, hz, h⟩))
    · cases h
  | 3 | 4 | 5 | 6 =>
    simp only [decodeZ] at h
    split at h
    · rename_i hz
      cases h
      exact .inr (.inr (.inr ⟨hz, rfl, by simp [val]⟩))
    · cases h
  | n + 7 => cases h

/-- A decoded SETF has taken eight payload words (R77, R78). -/
theorem decodeSetf_cases {rest ws : List Word} {i : Instr} (h : decodeSetf rest = .ok (i, ws)) :
    ∃ p0 p1 p2 p3 p4 p5 p6 p7, rest = p0 :: p1 :: p2 :: p3 :: p4 :: p5 :: p6 :: p7 :: ws ∧
      i = .setf (maskOfWords p0 p1 p2 p3 p4 p5 p6 p7) := by
  unfold decodeSetf at h
  split at h
  · cases h
    exact ⟨_, _, _, _, _, _, _, _, rfl, rfl⟩
  · cases h

/-- Decoding answers an SVC only for a word whose top eight bits are zero, and takes that word alone. -/
theorem decode_ok_svc {w : Word} {rest ws : List Word} {i : Instr} (h : decode (w :: rest) = .ok (i, ws))
    (hi : isSvc i = true) : w.extractLsb' 24 8 = 0#8 ∧ i = decodeSvc w ∧ ws = rest := by
  rcases decode_cons_cases h with h | ⟨_, _, rfl, _⟩ | ⟨_, _, h⟩ | ⟨_, _, h⟩
  · exact h
  · simp [isSvc, svcSamples] at hi
  · obtain ⟨_, _, _, _, _, _, _, _, _, rfl⟩ := decodeSetf_cases h
    simp [isSvc, svcSamples] at hi
  · rcases h with ⟨_, rfl⟩ | ⟨_, rfl⟩ | ⟨_, rfl⟩ | ⟨_, rfl⟩ <;> simp [isSvc, svcSamples] at hi

/-- A nonempty stream decodes only to what its first word starts. -/
theorem decode_nil : decode [] = .error .endOfStream := rfl

end Sys2Proof
end

