-- ==== Sys2Proof/Laws/State.lean ====
section
/-! SUPPORT. What each field is after each field update: one simp lemma a field and an update, true by rfl. -/

namespace Sys2Proof.Machine

/-! ### `State.turns` -/

theorem State.turns_of_schedule {s : State} {t : Turn} {l : List Turn} (h : s.schedule = t :: l) : s.turns = t :: l := by
  simp [State.turns, h]

theorem State.turns_of_nil {s : State} (h : s.schedule = []) : s.turns = s.recurring := by
  simp [State.turns, h]

theorem State.turns_eq_nil {s : State} : s.turns = [] ↔ s.schedule = [] ∧ s.recurring = [] := by
  unfold State.turns
  cases s.schedule <;> simp

/-! ### `State.putByte` -/

@[simp] theorem State.putByte_cfg (s : State) (i : Nat) (b : Byte) : (s.putByte i b).cfg = s.cfg := rfl
@[simp] theorem State.putByte_storage (s : State) (i : Nat) (b : Byte) : (s.putByte i b).storage = Memory.write s.storage i b := rfl
@[simp] theorem State.putByte_length (s : State) (i : Nat) (b : Byte) : (s.putByte i b).length = s.length := rfl
@[simp] theorem State.putByte_filter (s : State) (i : Nat) (b : Byte) : (s.putByte i b).filter = s.filter := rfl
@[simp] theorem State.putByte_initialized (s : State) (i : Nat) (b : Byte) : (s.putByte i b).initialized = s.initialized := rfl
@[simp] theorem State.putByte_ienRda (s : State) (i : Nat) (b : Byte) : (s.putByte i b).ienRda = s.ienRda := rfl
@[simp] theorem State.putByte_ienThre (s : State) (i : Nat) (b : Byte) : (s.putByte i b).ienThre = s.ienThre := rfl
@[simp] theorem State.putByte_ienRls (s : State) (i : Nat) (b : Byte) : (s.putByte i b).ienRls = s.ienRls := rfl
@[simp] theorem State.putByte_fg (s : State) (i : Nat) (b : Byte) : (s.putByte i b).fg = s.fg := rfl
@[simp] theorem State.putByte_fault (s : State) (i : Nat) (b : Byte) : (s.putByte i b).fault = s.fault := rfl
@[simp] theorem State.putByte_stream (s : State) (i : Nat) (b : Byte) : (s.putByte i b).stream = s.stream := rfl
@[simp] theorem State.putByte_index (s : State) (i : Nat) (b : Byte) : (s.putByte i b).index = s.index := rfl
@[simp] theorem State.putByte_schedule (s : State) (i : Nat) (b : Byte) : (s.putByte i b).schedule = s.schedule := rfl
@[simp] theorem State.putByte_recurring (s : State) (i : Nat) (b : Byte) : (s.putByte i b).recurring = s.recurring := rfl
@[simp] theorem State.putByte_turns (s : State) (i : Nat) (b : Byte) : (s.putByte i b).turns = s.turns := rfl
@[simp] theorem State.putByte_trace (s : State) (i : Nat) (b : Byte) : (s.putByte i b).trace = s.trace := rfl

/-! ### `State.setLength` -/

@[simp] theorem State.setLength_cfg (s : State) (n : Nat) : (s.setLength n).cfg = s.cfg := rfl
@[simp] theorem State.setLength_storage (s : State) (n : Nat) : (s.setLength n).storage = s.storage := rfl
@[simp] theorem State.setLength_length (s : State) (n : Nat) : (s.setLength n).length = n := rfl
@[simp] theorem State.setLength_filter (s : State) (n : Nat) : (s.setLength n).filter = s.filter := rfl
@[simp] theorem State.setLength_initialized (s : State) (n : Nat) : (s.setLength n).initialized = s.initialized := rfl
@[simp] theorem State.setLength_ienRda (s : State) (n : Nat) : (s.setLength n).ienRda = s.ienRda := rfl
@[simp] theorem State.setLength_ienThre (s : State) (n : Nat) : (s.setLength n).ienThre = s.ienThre := rfl
@[simp] theorem State.setLength_ienRls (s : State) (n : Nat) : (s.setLength n).ienRls = s.ienRls := rfl
@[simp] theorem State.setLength_fg (s : State) (n : Nat) : (s.setLength n).fg = s.fg := rfl
@[simp] theorem State.setLength_fault (s : State) (n : Nat) : (s.setLength n).fault = s.fault := rfl
@[simp] theorem State.setLength_stream (s : State) (n : Nat) : (s.setLength n).stream = s.stream := rfl
@[simp] theorem State.setLength_index (s : State) (n : Nat) : (s.setLength n).index = s.index := rfl
@[simp] theorem State.setLength_schedule (s : State) (n : Nat) : (s.setLength n).schedule = s.schedule := rfl
@[simp] theorem State.setLength_recurring (s : State) (n : Nat) : (s.setLength n).recurring = s.recurring := rfl
@[simp] theorem State.setLength_turns (s : State) (n : Nat) : (s.setLength n).turns = s.turns := rfl
@[simp] theorem State.setLength_trace (s : State) (n : Nat) : (s.setLength n).trace = s.trace := rfl

/-! ### `State.setFilter` -/

@[simp] theorem State.setFilter_cfg (s : State) (f : Option ByteSet) : (s.setFilter f).cfg = s.cfg := rfl
@[simp] theorem State.setFilter_storage (s : State) (f : Option ByteSet) : (s.setFilter f).storage = s.storage := rfl
@[simp] theorem State.setFilter_length (s : State) (f : Option ByteSet) : (s.setFilter f).length = s.length := rfl
@[simp] theorem State.setFilter_filter (s : State) (f : Option ByteSet) : (s.setFilter f).filter = f := rfl
@[simp] theorem State.setFilter_initialized (s : State) (f : Option ByteSet) : (s.setFilter f).initialized = s.initialized := rfl
@[simp] theorem State.setFilter_ienRda (s : State) (f : Option ByteSet) : (s.setFilter f).ienRda = s.ienRda := rfl
@[simp] theorem State.setFilter_ienThre (s : State) (f : Option ByteSet) : (s.setFilter f).ienThre = s.ienThre := rfl
@[simp] theorem State.setFilter_ienRls (s : State) (f : Option ByteSet) : (s.setFilter f).ienRls = s.ienRls := rfl
@[simp] theorem State.setFilter_fg (s : State) (f : Option ByteSet) : (s.setFilter f).fg = s.fg := rfl
@[simp] theorem State.setFilter_fault (s : State) (f : Option ByteSet) : (s.setFilter f).fault = s.fault := rfl
@[simp] theorem State.setFilter_stream (s : State) (f : Option ByteSet) : (s.setFilter f).stream = s.stream := rfl
@[simp] theorem State.setFilter_index (s : State) (f : Option ByteSet) : (s.setFilter f).index = s.index := rfl
@[simp] theorem State.setFilter_schedule (s : State) (f : Option ByteSet) : (s.setFilter f).schedule = s.schedule := rfl
@[simp] theorem State.setFilter_recurring (s : State) (f : Option ByteSet) : (s.setFilter f).recurring = s.recurring := rfl
@[simp] theorem State.setFilter_turns (s : State) (f : Option ByteSet) : (s.setFilter f).turns = s.turns := rfl
@[simp] theorem State.setFilter_trace (s : State) (f : Option ByteSet) : (s.setFilter f).trace = s.trace := rfl

/-! ### `State.setInitialized` -/

@[simp] theorem State.setInitialized_cfg (s : State) : (s.setInitialized).cfg = s.cfg := rfl
@[simp] theorem State.setInitialized_storage (s : State) : (s.setInitialized).storage = s.storage := rfl
@[simp] theorem State.setInitialized_length (s : State) : (s.setInitialized).length = s.length := rfl
@[simp] theorem State.setInitialized_filter (s : State) : (s.setInitialized).filter = s.filter := rfl
@[simp] theorem State.setInitialized_initialized (s : State) : (s.setInitialized).initialized = true := rfl
@[simp] theorem State.setInitialized_ienRda (s : State) : (s.setInitialized).ienRda = true := rfl
@[simp] theorem State.setInitialized_ienThre (s : State) : (s.setInitialized).ienThre = true := rfl
@[simp] theorem State.setInitialized_ienRls (s : State) : (s.setInitialized).ienRls = true := rfl
@[simp] theorem State.setInitialized_fg (s : State) : (s.setInitialized).fg = s.fg := rfl
@[simp] theorem State.setInitialized_fault (s : State) : (s.setInitialized).fault = s.fault := rfl
@[simp] theorem State.setInitialized_stream (s : State) : (s.setInitialized).stream = s.stream := rfl
@[simp] theorem State.setInitialized_index (s : State) : (s.setInitialized).index = s.index := rfl
@[simp] theorem State.setInitialized_schedule (s : State) : (s.setInitialized).schedule = s.schedule := rfl
@[simp] theorem State.setInitialized_recurring (s : State) : (s.setInitialized).recurring = s.recurring := rfl
@[simp] theorem State.setInitialized_turns (s : State) : (s.setInitialized).turns = s.turns := rfl
@[simp] theorem State.setInitialized_trace (s : State) : (s.setInitialized).trace = s.trace := rfl

/-! ### `State.setIenRda` -/

@[simp] theorem State.setIenRda_cfg (s : State) (b : Bool) : (s.setIenRda b).cfg = s.cfg := rfl
@[simp] theorem State.setIenRda_storage (s : State) (b : Bool) : (s.setIenRda b).storage = s.storage := rfl
@[simp] theorem State.setIenRda_length (s : State) (b : Bool) : (s.setIenRda b).length = s.length := rfl
@[simp] theorem State.setIenRda_filter (s : State) (b : Bool) : (s.setIenRda b).filter = s.filter := rfl
@[simp] theorem State.setIenRda_initialized (s : State) (b : Bool) : (s.setIenRda b).initialized = s.initialized := rfl
@[simp] theorem State.setIenRda_ienRda (s : State) (b : Bool) : (s.setIenRda b).ienRda = b := rfl
@[simp] theorem State.setIenRda_ienThre (s : State) (b : Bool) : (s.setIenRda b).ienThre = s.ienThre := rfl
@[simp] theorem State.setIenRda_ienRls (s : State) (b : Bool) : (s.setIenRda b).ienRls = s.ienRls := rfl
@[simp] theorem State.setIenRda_fg (s : State) (b : Bool) : (s.setIenRda b).fg = s.fg := rfl
@[simp] theorem State.setIenRda_fault (s : State) (b : Bool) : (s.setIenRda b).fault = s.fault := rfl
@[simp] theorem State.setIenRda_stream (s : State) (b : Bool) : (s.setIenRda b).stream = s.stream := rfl
@[simp] theorem State.setIenRda_index (s : State) (b : Bool) : (s.setIenRda b).index = s.index := rfl
@[simp] theorem State.setIenRda_schedule (s : State) (b : Bool) : (s.setIenRda b).schedule = s.schedule := rfl
@[simp] theorem State.setIenRda_recurring (s : State) (b : Bool) : (s.setIenRda b).recurring = s.recurring := rfl
@[simp] theorem State.setIenRda_turns (s : State) (b : Bool) : (s.setIenRda b).turns = s.turns := rfl
@[simp] theorem State.setIenRda_trace (s : State) (b : Bool) : (s.setIenRda b).trace = s.trace := rfl

/-! ### `State.setFg` -/

@[simp] theorem State.setFg_cfg (s : State) (p : FgPhase) : (s.setFg p).cfg = s.cfg := rfl
@[simp] theorem State.setFg_storage (s : State) (p : FgPhase) : (s.setFg p).storage = s.storage := rfl
@[simp] theorem State.setFg_length (s : State) (p : FgPhase) : (s.setFg p).length = s.length := rfl
@[simp] theorem State.setFg_filter (s : State) (p : FgPhase) : (s.setFg p).filter = s.filter := rfl
@[simp] theorem State.setFg_initialized (s : State) (p : FgPhase) : (s.setFg p).initialized = s.initialized := rfl
@[simp] theorem State.setFg_ienRda (s : State) (p : FgPhase) : (s.setFg p).ienRda = s.ienRda := rfl
@[simp] theorem State.setFg_ienThre (s : State) (p : FgPhase) : (s.setFg p).ienThre = s.ienThre := rfl
@[simp] theorem State.setFg_ienRls (s : State) (p : FgPhase) : (s.setFg p).ienRls = s.ienRls := rfl
@[simp] theorem State.setFg_fg (s : State) (p : FgPhase) : (s.setFg p).fg = p := rfl
@[simp] theorem State.setFg_fault (s : State) (p : FgPhase) : (s.setFg p).fault = s.fault := rfl
@[simp] theorem State.setFg_stream (s : State) (p : FgPhase) : (s.setFg p).stream = s.stream := rfl
@[simp] theorem State.setFg_index (s : State) (p : FgPhase) : (s.setFg p).index = s.index := rfl
@[simp] theorem State.setFg_schedule (s : State) (p : FgPhase) : (s.setFg p).schedule = s.schedule := rfl
@[simp] theorem State.setFg_recurring (s : State) (p : FgPhase) : (s.setFg p).recurring = s.recurring := rfl
@[simp] theorem State.setFg_turns (s : State) (p : FgPhase) : (s.setFg p).turns = s.turns := rfl
@[simp] theorem State.setFg_trace (s : State) (p : FgPhase) : (s.setFg p).trace = s.trace := rfl

/-! ### `State.setFault` -/

@[simp] theorem State.setFault_cfg (s : State) (f : Option FaultRecord) : (s.setFault f).cfg = s.cfg := rfl
@[simp] theorem State.setFault_storage (s : State) (f : Option FaultRecord) : (s.setFault f).storage = s.storage := rfl
@[simp] theorem State.setFault_length (s : State) (f : Option FaultRecord) : (s.setFault f).length = s.length := rfl
@[simp] theorem State.setFault_filter (s : State) (f : Option FaultRecord) : (s.setFault f).filter = s.filter := rfl
@[simp] theorem State.setFault_initialized (s : State) (f : Option FaultRecord) : (s.setFault f).initialized = s.initialized := rfl
@[simp] theorem State.setFault_ienRda (s : State) (f : Option FaultRecord) : (s.setFault f).ienRda = s.ienRda := rfl
@[simp] theorem State.setFault_ienThre (s : State) (f : Option FaultRecord) : (s.setFault f).ienThre = s.ienThre := rfl
@[simp] theorem State.setFault_ienRls (s : State) (f : Option FaultRecord) : (s.setFault f).ienRls = s.ienRls := rfl
@[simp] theorem State.setFault_fg (s : State) (f : Option FaultRecord) : (s.setFault f).fg = s.fg := rfl
@[simp] theorem State.setFault_fault (s : State) (f : Option FaultRecord) : (s.setFault f).fault = f := rfl
@[simp] theorem State.setFault_stream (s : State) (f : Option FaultRecord) : (s.setFault f).stream = s.stream := rfl
@[simp] theorem State.setFault_index (s : State) (f : Option FaultRecord) : (s.setFault f).index = s.index := rfl
@[simp] theorem State.setFault_schedule (s : State) (f : Option FaultRecord) : (s.setFault f).schedule = s.schedule := rfl
@[simp] theorem State.setFault_recurring (s : State) (f : Option FaultRecord) : (s.setFault f).recurring = s.recurring := rfl
@[simp] theorem State.setFault_turns (s : State) (f : Option FaultRecord) : (s.setFault f).turns = s.turns := rfl
@[simp] theorem State.setFault_trace (s : State) (f : Option FaultRecord) : (s.setFault f).trace = s.trace := rfl

/-! ### `State.retire` -/

@[simp] theorem State.retire_cfg (s : State) (n : Nat) : (s.retire n).cfg = s.cfg := rfl
@[simp] theorem State.retire_storage (s : State) (n : Nat) : (s.retire n).storage = s.storage := rfl
@[simp] theorem State.retire_length (s : State) (n : Nat) : (s.retire n).length = s.length := rfl
@[simp] theorem State.retire_filter (s : State) (n : Nat) : (s.retire n).filter = s.filter := rfl
@[simp] theorem State.retire_initialized (s : State) (n : Nat) : (s.retire n).initialized = s.initialized := rfl
@[simp] theorem State.retire_ienRda (s : State) (n : Nat) : (s.retire n).ienRda = s.ienRda := rfl
@[simp] theorem State.retire_ienThre (s : State) (n : Nat) : (s.retire n).ienThre = s.ienThre := rfl
@[simp] theorem State.retire_ienRls (s : State) (n : Nat) : (s.retire n).ienRls = s.ienRls := rfl
@[simp] theorem State.retire_fg (s : State) (n : Nat) : (s.retire n).fg = s.fg := rfl
@[simp] theorem State.retire_fault (s : State) (n : Nat) : (s.retire n).fault = s.fault := rfl
@[simp] theorem State.retire_stream (s : State) (n : Nat) : (s.retire n).stream = s.stream.drop n := rfl
@[simp] theorem State.retire_index (s : State) (n : Nat) : (s.retire n).index = s.index + 1 := rfl
@[simp] theorem State.retire_schedule (s : State) (n : Nat) : (s.retire n).schedule = s.schedule := rfl
@[simp] theorem State.retire_recurring (s : State) (n : Nat) : (s.retire n).recurring = s.recurring := rfl
@[simp] theorem State.retire_turns (s : State) (n : Nat) : (s.retire n).turns = s.turns := rfl
@[simp] theorem State.retire_trace (s : State) (n : Nat) : (s.retire n).trace = s.trace := rfl

/-! ### `State.setSchedule` -/

@[simp] theorem State.setSchedule_cfg (s : State) (l : List Turn) : (s.setSchedule l).cfg = s.cfg := rfl
@[simp] theorem State.setSchedule_storage (s : State) (l : List Turn) : (s.setSchedule l).storage = s.storage := rfl
@[simp] theorem State.setSchedule_length (s : State) (l : List Turn) : (s.setSchedule l).length = s.length := rfl
@[simp] theorem State.setSchedule_filter (s : State) (l : List Turn) : (s.setSchedule l).filter = s.filter := rfl
@[simp] theorem State.setSchedule_initialized (s : State) (l : List Turn) : (s.setSchedule l).initialized = s.initialized := rfl
@[simp] theorem State.setSchedule_ienRda (s : State) (l : List Turn) : (s.setSchedule l).ienRda = s.ienRda := rfl
@[simp] theorem State.setSchedule_ienThre (s : State) (l : List Turn) : (s.setSchedule l).ienThre = s.ienThre := rfl
@[simp] theorem State.setSchedule_ienRls (s : State) (l : List Turn) : (s.setSchedule l).ienRls = s.ienRls := rfl
@[simp] theorem State.setSchedule_fg (s : State) (l : List Turn) : (s.setSchedule l).fg = s.fg := rfl
@[simp] theorem State.setSchedule_fault (s : State) (l : List Turn) : (s.setSchedule l).fault = s.fault := rfl
@[simp] theorem State.setSchedule_stream (s : State) (l : List Turn) : (s.setSchedule l).stream = s.stream := rfl
@[simp] theorem State.setSchedule_index (s : State) (l : List Turn) : (s.setSchedule l).index = s.index := rfl
@[simp] theorem State.setSchedule_schedule (s : State) (l : List Turn) : (s.setSchedule l).schedule = l := rfl
@[simp] theorem State.setSchedule_recurring (s : State) (l : List Turn) : (s.setSchedule l).recurring = s.recurring := rfl
@[simp] theorem State.setSchedule_trace (s : State) (l : List Turn) : (s.setSchedule l).trace = s.trace := rfl

/-! ### `State.emit` -/

@[simp] theorem State.emit_cfg (s : State) (o : Observation) : (s.emit o).cfg = s.cfg := rfl
@[simp] theorem State.emit_storage (s : State) (o : Observation) : (s.emit o).storage = s.storage := rfl
@[simp] theorem State.emit_length (s : State) (o : Observation) : (s.emit o).length = s.length := rfl
@[simp] theorem State.emit_filter (s : State) (o : Observation) : (s.emit o).filter = s.filter := rfl
@[simp] theorem State.emit_initialized (s : State) (o : Observation) : (s.emit o).initialized = s.initialized := rfl
@[simp] theorem State.emit_ienRda (s : State) (o : Observation) : (s.emit o).ienRda = s.ienRda := rfl
@[simp] theorem State.emit_ienThre (s : State) (o : Observation) : (s.emit o).ienThre = s.ienThre := rfl
@[simp] theorem State.emit_ienRls (s : State) (o : Observation) : (s.emit o).ienRls = s.ienRls := rfl
@[simp] theorem State.emit_fg (s : State) (o : Observation) : (s.emit o).fg = s.fg := rfl
@[simp] theorem State.emit_fault (s : State) (o : Observation) : (s.emit o).fault = s.fault := rfl
@[simp] theorem State.emit_stream (s : State) (o : Observation) : (s.emit o).stream = s.stream := rfl
@[simp] theorem State.emit_index (s : State) (o : Observation) : (s.emit o).index = s.index := rfl
@[simp] theorem State.emit_schedule (s : State) (o : Observation) : (s.emit o).schedule = s.schedule := rfl
@[simp] theorem State.emit_recurring (s : State) (o : Observation) : (s.emit o).recurring = s.recurring := rfl
@[simp] theorem State.emit_turns (s : State) (o : Observation) : (s.emit o).turns = s.turns := rfl
@[simp] theorem State.emit_trace (s : State) (o : Observation) : (s.emit o).trace = s.trace ++ [o] := rfl

end Sys2Proof.Machine
end

