-- ==== Sys2Proof/Laws/Memory.lean ====
section
/-! SUPPORT. The laws of the storage list: read after write, and that a write keeps the canonical form. -/

namespace Sys2Proof.Machine

@[simp] theorem Memory.read_nil (i : Nat) : Memory.read [] i = none := rfl

theorem Memory.read_write_same (m : Memory) (i : Nat) (b : Byte) : Memory.read (Memory.write m i b) i = some b := by
  induction m with
  | nil => simp [Memory.write, Memory.read]
  | cons c m ih =>
    obtain ⟨a, d⟩ := c
    simp only [Memory.write]
    split
    · simp [Memory.read]
    · split
      · simp [Memory.read]
      · have : a ≠ i := by omega
        simpa [Memory.read, this] using ih

theorem Memory.read_write_other (m : Memory) {i j : Nat} (b : Byte) (h : j ≠ i) :
    Memory.read (Memory.write m i b) j = Memory.read m j := by
  have h' : i ≠ j := fun e => h e.symm
  induction m with
  | nil => simp [Memory.write, Memory.read, Memory.unlisted, h']
  | cons c m ih =>
    obtain ⟨a, d⟩ := c
    simp only [Memory.write]
    split
    · simp [Memory.read, h']
    · split
      · rename_i e
        simp [Memory.read, h', e ▸ h']
      · simp [Memory.read, ih]

/-- A write lists its own index and none that was not listed. -/
theorem Memory.mem_write {m : Memory} {i : Nat} {b : Byte} {c : Host.Cell} (h : c ∈ Memory.write m i b) :
    c = (i, b) ∨ c ∈ m := by
  induction m with
  | nil => simpa [Memory.write] using h
  | cons d m ih =>
    simp only [Memory.write] at h
    split at h
    · simpa using h
    · split at h
      · rcases List.mem_cons.1 h with h | h
        · exact .inl h
        · exact .inr (List.mem_cons_of_mem _ h)
      · rcases List.mem_cons.1 h with h | h
        · exact .inr (h ▸ List.mem_cons_self)
        · exact (ih h).imp_right (List.mem_cons_of_mem _)

/-- A write keeps the canonical form. -/
theorem Memory.wf_write {m : Memory} (h : Memory.wf m) (i : Nat) (b : Byte) : Memory.wf (Memory.write m i b) := by
  induction m with
  | nil => simp [Memory.write, Memory.wf]
  | cons c m ih =>
    obtain ⟨h1, h2⟩ := List.pairwise_cons.1 h
    simp only [Memory.write]
    split
    · rename_i lt
      refine List.pairwise_cons.2 ⟨fun x hx => ?_, h⟩
      rcases List.mem_cons.1 hx with rfl | hx
      · exact lt
      · exact lt_trans lt (h1 x hx)
    · split
      · rename_i e
        exact List.pairwise_cons.2 ⟨fun x hx => by have := h1 x hx; simpa [e] using this, h2⟩
      · rename_i n1 n2
        refine List.pairwise_cons.2 ⟨fun x hx => ?_, ih h2⟩
        rcases Memory.mem_write hx with rfl | hx
        · simp only; omega
        · exact h1 x hx

/-- A write keeps every listed element listed. -/
theorem Memory.isSome_read_write {m : Memory} {j : Nat} (h : (Memory.read m j).isSome = true) (i : Nat) (b : Byte) :
    (Memory.read (Memory.write m i b) j).isSome = true := by
  by_cases e : j = i
  · simp [e, Memory.read_write_same]
  · simpa [Memory.read_write_other m b e] using h

/-- The empty storage list of reset is canonical. -/
theorem Memory.wf_nil : Memory.wf [] := List.Pairwise.nil

/-! ### The byte an element holds -/

theorem State.byteAt_putByte_same (s : State) (i : Nat) (b : Byte) : (s.putByte i b).byteAt i = b := by
  simp [State.byteAt, Memory.read_write_same]

theorem State.byteAt_putByte_other (s : State) {i j : Nat} (b : Byte) (h : j ≠ i) :
    (s.putByte i b).byteAt j = s.byteAt j := by
  simp [State.byteAt, Memory.read_write_other _ b h]

theorem State.byteAt_of_read {s : State} {i : Nat} {b : Byte} (h : Memory.read s.storage i = some b) :
    s.byteAt i = b := by
  simp [State.byteAt, h]

end Sys2Proof.Machine
end

