-- ==== Sys2Proof/Laws/Ops.lean ====
section
/-! SUPPORT. One lemma per shared operation that says everything it can do. Later proofs cite these and do not unfold the
operations. -/

namespace Sys2Proof.Machine

/-! ### Conditions, in the spec's terms -/

theorem filterDrops_iff (cfg : Config) (filter : Option ByteSet) (b : Byte) :
    discards cfg filter b = true ↔ FilterDrops cfg filter b := by
  cases filter <;> simp [discards, FilterDrops, ByteSet.mem]

theorem getLsbD_lsrBit (p : Fin 8) (j : Nat) (hj : j < 8) : (lsrBit p).getLsbD j = decide (p.val = j) := by
  have key : ∀ p : Fin 8, ∀ j : Fin 8, (lsrBit p).getLsbD j.val = decide (p.val = j.val) := by decide
  exact key p ⟨j, hj⟩

theorem lineErrorFlag_iff (cfg : Config) (l : Byte) : hasError cfg l = true ↔ LineErrorFlag cfg l := by
  have bits : hasError cfg l = true ↔ ∃ j, j < 8 ∧ (l.getLsbD j && (errMask cfg).getLsbD j) = true := by
    constructor
    · intro h
      by_contra hn
      have hz : l &&& errMask cfg = 0 := by
        refine BitVec.eq_of_getLsbD_eq fun j hj => ?_
        have : ¬ (l.getLsbD j && (errMask cfg).getLsbD j) = true := fun e => hn ⟨j, hj, e⟩
        simpa using this
      simp [hasError, hz] at h
    · rintro ⟨j, hj, e⟩
      have hn : l &&& errMask cfg ≠ 0 := by
        intro hz
        have := congrArg (fun x => x.getLsbD j) hz
        simp only [BitVec.getLsbD_and, e] at this
        simp at this
      simpa [hasError] using hn
  rw [bits]
  constructor
  · rintro ⟨j, hj, e⟩
    obtain ⟨hl, hm⟩ := Bool.and_eq_true_iff.1 e
    simp only [errMask, BitVec.getLsbD_or, getLsbD_lsrBit _ j hj, Bool.or_eq_true, decide_eq_true_eq] at hm
    unfold LineErrorFlag
    rcases hm with (((h | h) | h) | h) | h <;> rw [h] <;> simp [hl]
  · intro h
    have pick (p : Fin 8) (hl : l.getLsbD p.val = true) (hm : (errMask cfg).getLsbD p.val = true) :
        ∃ j, j < 8 ∧ (l.getLsbD j && (errMask cfg).getLsbD j) = true := ⟨p.val, p.isLt, by simp [hl, hm]⟩
    have mask (p j : Fin 8) : (lsrBit p).getLsbD j.val = decide (p.val = j.val) := getLsbD_lsrBit p j.val j.isLt
    rcases h with h | h | h | h | h
    · exact pick _ h (by simp [errMask, mask])
    · exact pick _ h (by simp [errMask, mask])
    · exact pick _ h (by simp [errMask, mask])
    · exact pick _ h (by simp [errMask, mask])
    · exact pick _ h (by simp [errMask, mask])

theorem svcBlocked_eq_none (s : State) (c : EventClass) : svcBlocked s c = none ↔ SvcMayOccur s c := by
  unfold svcBlocked SvcMayOccur
  cases hf : s.fault <;> cases hi : s.initialized <;> cases hg : s.cfg.gateByEnable <;> cases c <;>
    simp [enabled]

theorem canIssue_iff (s : State) : CanIssue s ↔ s.fault.isSome = false ∧ s.fg.inRead = false := by
  unfold CanIssue
  cases s.fault <;> cases s.fg <;> simp [FgPhase.inRead]

/-! ### The class of a cause (R100) -/

theorem classOf_rls {cfg : Config} {c : BitVec 3} (h : c = cfg.causeRls) : classOf cfg c = .rls := by
  simp [classOf, h]

theorem classOf_rda {cfg : Config} {c : BitVec 3} (hl : cfg.Legal) (h : c = cfg.causeRda) :
    classOf cfg c = .rda := by
  have := hl.2.2.1
  simp only [List.nodup_cons, List.mem_cons, not_or] at this
  simp [classOf, h, this.2.1.1]

theorem classOf_thre {cfg : Config} {c : BitVec 3} (hl : cfg.Legal) (h : c = cfg.causeThre) :
    classOf cfg c = .thre := by
  have := hl.2.2.1
  simp only [List.nodup_cons, List.mem_cons, not_or] at this
  simp [classOf, h, this.1.1, this.1.2.1]

theorem classOf_cti {cfg : Config} {c : BitVec 3} (hl : cfg.Legal) (h : c = cfg.causeCti) :
    classOf cfg c = .cti := by
  have := hl.2.2.1
  simp only [List.nodup_cons, List.mem_cons, not_or] at this
  have h1 : cfg.causeCti ≠ cfg.causeThre := fun e => this.1.2.2.1 e.symm
  have h2 : cfg.causeCti ≠ cfg.causeRda := fun e => this.2.1.2.1 e.symm
  have h3 : cfg.causeCti ≠ cfg.causeRls := fun e => this.2.2.1.1 e.symm
  simp [classOf, h, h1, h2, h3]

theorem classOf_other {cfg : Config} {c : BitVec 3}
    (h : c ∉ [cfg.causeRls, cfg.causeRda, cfg.causeThre, cfg.causeCti]) : classOf cfg c = .other := by
  simp only [List.mem_cons, List.not_mem_nil, or_false, not_or] at h
  simp [classOf, h]

/-! ### Storage accesses -/

theorem memRead_of_lt {s : State} {i : Nat} (h : i < s.cfg.capacity) : memRead s i = some (s.byteAt i) := by
  simp [memRead, h]

theorem append_of_lt {s : State} (b : Byte) (h : s.length < s.cfg.capacity) :
    append b s = some ((s.putByte s.length b).setLength (lengthAfterAppend s.cfg s.length)) := by
  simp [append, memWrite, h]

theorem append_cases {b : Byte} {s t : State} (h : append b s = some t) :
    s.length < s.cfg.capacity ∧ t = (s.putByte s.length b).setLength (lengthAfterAppend s.cfg s.length) := by
  by_cases l : s.length < s.cfg.capacity
  · rw [append_of_lt b l] at h
    exact ⟨l, (Option.some.inj h).symm⟩
  · simp [append, memWrite, l] at h

theorem lengthAfterAppend_lt {cfg : Config} {n : Nat} (h : n < cfg.capacity) :
    lengthAfterAppend cfg n < cfg.capacity := by
  unfold lengthAfterAppend
  split <;> omega

/-! ### Servicing an SVC -/

/-- An SVC does one of two things: it appends its byte, or it leaves the block alone; and it emits one record. -/
theorem accept_next {lsrRead : Bool} {b : Byte} {s t : State} (h : accept lsrRead b s = .next t) :
    (FilterDrops s.cfg s.filter b ∧ t = s.emit (svcRecord lsrRead true (.filtered b))) ∨
    (¬ FilterDrops s.cfg s.filter b ∧ s.length < s.cfg.capacity ∧
      t = appendedState s b ⟨true, lsrRead, true, .appended b⟩) := by
  unfold accept at h
  rw [← filterDrops_iff]
  split at h
  · rename_i hd
    cases h
    exact .inl ⟨hd, rfl⟩
  · rename_i hd
    split at h
    · rename_i s1 ha
      obtain ⟨l, rfl⟩ := append_cases ha
      cases h
      exact .inr ⟨hd, l, rfl⟩
    · cases h

theorem accept_filtered {lsrRead : Bool} {b : Byte} {s : State} (h : FilterDrops s.cfg s.filter b) :
    accept lsrRead b s = .next (s.emit (svcRecord lsrRead true (.filtered b))) := by
  simp [accept, (filterDrops_iff _ _ _).2 h]

theorem accept_appended {lsrRead : Bool} {b : Byte} {s : State} (h : ¬ FilterDrops s.cfg s.filter b)
    (l : s.length < s.cfg.capacity) :
    accept lsrRead b s = .next (appendedState s b ⟨true, lsrRead, true, .appended b⟩) := by
  rw [← filterDrops_iff] at h
  simp only [accept, h, append_of_lt b l]
  rfl

/-- Everything servicing a class can do (R102 to R107). -/
theorem serviceClass_next {c : EventClass} {lsr rbr : Byte} {s t : State} (h : serviceClass c lsr rbr s = .next t) :
    (∃ o : SvcOutcome, o.iirRead = true ∧ (∀ b, o.action ≠ .appended b) ∧ t = s.emit (.svc o)) ∨
    (∃ o : SvcOutcome, o.iirRead = true ∧ o.rbrRead = true ∧ o.action = .appended rbr ∧
      ¬ FilterDrops s.cfg s.filter rbr ∧ s.length < s.cfg.capacity ∧ t = appendedState s rbr o) := by
  have acc (r : Bool) (h : accept r rbr s = .next t) :
      (∃ o : SvcOutcome, o.iirRead = true ∧ (∀ b, o.action ≠ .appended b) ∧ t = s.emit (.svc o)) ∨
      (∃ o : SvcOutcome, o.iirRead = true ∧ o.rbrRead = true ∧ o.action = .appended rbr ∧
        ¬ FilterDrops s.cfg s.filter rbr ∧ s.length < s.cfg.capacity ∧ t = appendedState s rbr o) := by
    rcases accept_next h with ⟨_, rfl⟩ | ⟨hd, l, rfl⟩
    · exact .inl ⟨_, rfl, by simp, rfl⟩
    · exact .inr ⟨_, rfl, rfl, rfl, hd, l, rfl⟩
  cases c <;> simp only [serviceClass] at h
  · unfold serviceRls at h
    split at h
    · cases h
      exact .inl ⟨_, rfl, by simp, rfl⟩
    · split at h
      · exact acc _ h
      · cases h
        exact .inl ⟨_, rfl, by simp, rfl⟩
  · exact acc _ h
  all_goals
    unfold serviceIgnored at h
    cases h
    exact .inl ⟨_, rfl, by simp, rfl⟩

theorem svcStep_of_mayOccur {iir lsr rbr : Byte} {s : State} (h : SvcMayOccur s (classOf s.cfg (causeOf iir))) :
    svcStep iir lsr rbr s = serviceClass (classOf s.cfg (causeOf iir)) lsr rbr s := by
  simp [svcStep, (svcBlocked_eq_none _ _).2 h]

theorem svcStep_next {iir lsr rbr : Byte} {s t : State} (h : svcStep iir lsr rbr s = .next t) :
    SvcMayOccur s (classOf s.cfg (causeOf iir)) ∧
      serviceClass (classOf s.cfg (causeOf iir)) lsr rbr s = .next t := by
  unfold svcStep at h
  simp only at h
  split at h
  · cases h
  · rename_i hb
    exact ⟨(svcBlocked_eq_none _ _).1 hb, h⟩

/-- The meaning of every SVC row is the SVC step on its samples (R116). -/
theorem exec_svc {i : Instr} {iir lsr rbr : Byte} (h : svcSamples i = some (iir, lsr, rbr)) (s : State) :
    exec i s = svcStep iir lsr rbr s := by
  cases i <;> simp [svcSamples] at h <;> obtain ⟨rfl, rfl, rfl⟩ := h <;> rfl

/-! ### Issuing a foreground operation -/

theorem issue_ok {i : Instr} {s : State} (effect : State → Result) (h : CanIssue s) (hc : fgCheck i s = none) :
    issue i s effect = effect (s.retire (encode i).length) := by
  obtain ⟨h1, h2⟩ := (canIssue_iff s).1 h
  simp [issue, h1, h2, hc]

theorem issue_fault {i : Instr} {s : State} (effect : State → Result) {code : FaultCode} (h : CanIssue s)
    (hc : fgCheck i s = some code) : issue i s effect = .next (faultedState s code (firstWord i)) := by
  obtain ⟨h1, h2⟩ := (canIssue_iff s).1 h
  simp only [issue, h1, h2, hc]
  rfl

/-- Everything an issue can do when it has a next state (R140). -/
theorem issue_next {i : Instr} {s t : State} {effect : State → Result} (h : issue i s effect = .next t) :
    CanIssue s ∧
      ((∃ code, fgCheck i s = some code ∧ t = faultedState s code (firstWord i)) ∨
        (fgCheck i s = none ∧ effect (s.retire (encode i).length) = .next t)) := by
  by_cases h1 : s.fault.isSome = true
  · simp [issue, h1] at h
  · by_cases h2 : s.fg.inRead = true
    · simp [issue, h1, h2] at h
    · have hci : CanIssue s := (canIssue_iff s).2 ⟨by simpa using h1, by simpa using h2⟩
      refine ⟨hci, ?_⟩
      cases hc : fgCheck i s with
      | some code =>
        rw [issue_fault effect hci hc] at h
        cases h
        exact .inl ⟨code, rfl, rfl⟩
      | none =>
        rw [issue_ok effect hci hc] at h
        exact .inr ⟨rfl, h⟩

/-- What a foreground operation does to the state it is removed from the stream of, once its checks have passed
(R141 to R161). -/
def fgEffect (i : Instr) (s : State) : Result :=
  match i with
  | .read max => readEffect max s
  | .setf set => .next (s.setFilter (some set))
  | .clrf => .next (s.setFilter none)
  | .init => .next s.setInitialized
  | .txb => .next ((s.setIenRda false).setFg .writing)
  | .txe => .next ((s.setIenRda true).setFg .idle)
  | .svcOther0 _ _ _ _ => .fault .svcIllegalWord
  | .svcThre _ _ _ _ => .fault .svcIllegalWord
  | .svcRda _ _ _ _ => .fault .svcIllegalWord
  | .svcRls _ _ _ _ => .fault .svcIllegalWord
  | .svcOther4 _ _ _ _ => .fault .svcIllegalWord
  | .svcOther5 _ _ _ _ => .fault .svcIllegalWord
  | .svcCti _ _ _ _ => .fault .svcIllegalWord
  | .svcOther7 _ _ _ _ => .fault .svcIllegalWord

/-- The meaning of every foreground operation is an issue with its effect (R140). -/
theorem exec_fg {i : Instr} (h : isSvc i = false) (s : State) : exec i s = issue i s (fgEffect i) := by
  cases i <;> first | rfl | simp [isSvc, svcSamples] at h

theorem drainAtomic_of_lt {max : Nat} {s : State} (h : s.length < s.cfg.capacity) :
    drainAtomic max s = .next ((s.setLength 0).emit (readRecord ((List.range (min max s.length)).map s.byteAt))) := by
  have : min max s.length ≤ s.cfg.capacity := by omega
  simp [drainAtomic, memReadFirst, this]

theorem drainAtomic_next {max : Nat} {s t : State} (h : drainAtomic max s = .next t) :
    min max s.length ≤ s.cfg.capacity ∧
      t = (s.setLength 0).emit (readRecord ((List.range (min max s.length)).map s.byteAt)) := by
  by_cases l : min max s.length ≤ s.cfg.capacity
  · simp only [drainAtomic, memReadFirst, l, if_true] at h
    cases h
    exact ⟨l, rfl⟩
  · simp only [drainAtomic, memReadFirst, l, if_false] at h
    cases h

/-- Everything a READ that passes its checks can do (R150, R156). -/
theorem readEffect_next {max : Nat} {s t : State} (h : readEffect max s = .next t) :
    (s.length = 0 ∧ t = s.emit (readRecord [])) ∨
    (s.length ≠ 0 ∧ s.cfg.hardenedDrain = true ∧ min max s.length ≤ s.cfg.capacity ∧
      t = (s.setLength 0).emit (readRecord ((List.range (min max s.length)).map s.byteAt))) ∨
    (s.length ≠ 0 ∧ s.cfg.hardenedDrain = false ∧ s.cfg.readLenSample = .once ∧
      t = s.setFg (copyPhase (min max s.length))) ∨
    (s.length ≠ 0 ∧ s.cfg.hardenedDrain = false ∧ s.cfg.readLenSample = .atCopy ∧ t = s.setFg (.rdCount max)) := by
  unfold readEffect at h
  split at h
  · rename_i hl
    cases h
    exact .inl ⟨hl, rfl⟩
  · rename_i hl
    split at h
    · rename_i hh
      obtain ⟨hb, rfl⟩ := drainAtomic_next h
      exact .inr (.inl ⟨hl, hh, hb, rfl⟩)
    · rename_i hh
      split at h <;> rename_i hs <;> cases h
      · exact .inr (.inr (.inl ⟨hl, by simpa using hh, hs, rfl⟩))
      · exact .inr (.inr (.inr ⟨hl, by simpa using hh, hs, rfl⟩))

/-! ### The issue checks (R140) -/

theorem fgCheck_eq_none {i : Instr} {s : State} (h : fgCheck i s = none) :
    ¬ (i = .init ∧ s.initialized = true) ∧ ¬ (i ≠ .init ∧ s.initialized = false) ∧
      ¬ (s.fg = .writing ∧ i ≠ .txe) ∧ ¬ (i = .txe ∧ s.fg ≠ .writing) := by
  unfold fgCheck at h
  split at h
  · cases h
  · split at h
    · cases h
    · split at h
      · cases h
      · split at h
        · cases h
        · exact ⟨by assumption, by assumption, by assumption, by assumption⟩

end Sys2Proof.Machine
end

