-- ==== Sys2Proof/Laws/Step.lean ====
section
/-! SUPPORT. Everything a step can do, said once. -/

namespace Sys2Proof.Machine

/-- The coming step is the interrupt agent's on word `w` (R184). -/
theorem not_fgMoves_iff (s : State) : ¬ FgMoves s ↔ ∃ w rest, s.turns = .svc w :: rest := by
  unfold FgMoves
  cases h : s.turns with
  | nil => simp
  | cons x l => cases x <;> simp

theorem step_of_fgMoves {s : State} (h : FgMoves s) : step s = fgTurn (s.setSchedule s.turns.tail) := by
  unfold step turn
  unfold FgMoves at h
  cases hs : s.turns with
  | nil =>
    obtain ⟨h1, -⟩ := State.turns_eq_nil.1 hs
    simp only [List.tail_nil]
    congr 1
    cases s
    simp_all [State.setSchedule]
  | cons x l => cases x <;> simp_all [agentStep]

theorem step_of_svc {s : State} {w : Word} {turns : List Turn} (h : s.turns = .svc w :: turns) :
    step s = svcTurn w (s.setSchedule turns) := by
  simp [step, turn, h, agentStep]

/-- A step is that of the next choice's agent (R184). -/
theorem step_of_turns {s : State} {t : Turn} {turns : List Turn} (h : s.turns = t :: turns) :
    step s = agentStep t (s.setSchedule turns) := by
  simp [step, turn, h]

/-- A micro-step is what the phase says (R181). -/
theorem fgTurn_rdCount {s : State} {max : Nat} (hf : s.fault = none) (h : s.fg = .rdCount max) :
    fgTurn s = microCnt max s := by
  simp [fgTurn, hf, microStep, h]

theorem fgTurn_rdCopy {s : State} {n k : Nat} {out : List Byte} (hf : s.fault = none) (h : s.fg = .rdCopy n k out) :
    fgTurn s = microCpy n k out s := by
  simp [fgTurn, hf, microStep, h]

theorem fgTurn_rdReset {s : State} {out : List Byte} (hf : s.fault = none) (h : s.fg = .rdReset out) :
    fgTurn s = microRst out s := by
  simp [fgTurn, hf, microStep, h]

theorem fgTurn_issue {s : State} (h : CanIssue s) : fgTurn s = fgIssue s := by
  obtain ⟨h1, h2⟩ := h
  rcases h2 with h2 | h2 <;> simp [fgTurn, h1, microStep, h2]

theorem microCpy_next {n k : Nat} {out : List Byte} {s t : State} (h : microCpy n k out s = .next t) :
    k < n ∧ k < s.cfg.capacity ∧
      t = s.setFg (if k + 1 = n then .rdReset (out ++ [s.byteAt k]) else .rdCopy n (k + 1) (out ++ [s.byteAt k])) := by
  by_cases hk : k < n
  · by_cases hc : k < s.cfg.capacity
    · simp only [microCpy, hk, memRead_of_lt hc, if_true] at h
      cases h
      exact ⟨hk, hc, rfl⟩
    · simp only [microCpy, hk, memRead, hc, if_true, if_false] at h
      cases h
  · simp only [microCpy, hk, if_false] at h
    cases h

theorem microCpy_of_lt {n k : Nat} (out : List Byte) {s : State} (hk : k < n) (hc : k < s.cfg.capacity) :
    microCpy n k out s = .next
      (s.setFg (if k + 1 = n then .rdReset (out ++ [s.byteAt k]) else .rdCopy n (k + 1) (out ++ [s.byteAt k]))) := by
  simp [microCpy, hk, memRead_of_lt hc]

/-- Everything a foreground step can do (R181). -/
theorem fgTurn_next {s t : State} (h : fgTurn s = .next t) :
    s.fault = none ∧
    ((∃ max, s.fg = .rdCount max ∧ t = s.setFg (copyPhase (min max s.length))) ∨
     (∃ n k out, s.fg = .rdCopy n k out ∧ k < n ∧ k < s.cfg.capacity ∧
        t = s.setFg (if k + 1 = n then .rdReset (out ++ [s.byteAt k]) else .rdCopy n (k + 1) (out ++ [s.byteAt k]))) ∨
     (∃ out, s.fg = .rdReset out ∧ t = ((s.setLength 0).setFg .idle).emit (readRecord out)) ∨
     (CanIssue s ∧ ∃ w rest, s.stream = w :: rest ∧
        ((((∃ e, decode s.stream = .error e) ∨ (∃ i ws, decode s.stream = .ok (i, ws) ∧ isSvc i = true)) ∧
            t = faultedState s .illegal w) ∨
          (∃ i ws, decode s.stream = .ok (i, ws) ∧ isSvc i = false ∧ exec i s = .next t)))) := by
  have hf : s.fault = none := by
    by_contra hn
    have : s.fault.isSome = true := by
      cases hs : s.fault with
      | none => exact absurd hs hn
      | some _ => rfl
    simp [fgTurn, this] at h
  refine ⟨hf, ?_⟩
  have issueCase (hci : CanIssue s) : CanIssue s ∧ ∃ w rest, s.stream = w :: rest ∧
        ((((∃ e, decode s.stream = .error e) ∨ (∃ i ws, decode s.stream = .ok (i, ws) ∧ isSvc i = true)) ∧
            t = faultedState s .illegal w) ∨
          (∃ i ws, decode s.stream = .ok (i, ws) ∧ isSvc i = false ∧ exec i s = .next t)) := by
    refine ⟨hci, ?_⟩
    rw [fgTurn_issue hci] at h
    unfold fgIssue at h
    split at h
    · cases h
    · rename_i w rest hs
      refine ⟨w, rest, hs, ?_⟩
      rw [hs]
      split at h
      · rename_i e hd
        cases h
        exact .inl ⟨.inl ⟨e, hd⟩, rfl⟩
      · rename_i i ws hd
        split at h
        · rename_i hi
          cases h
          exact .inl ⟨.inr ⟨i, ws, hd, hi⟩, rfl⟩
        · rename_i hi
          exact .inr ⟨i, ws, hd, by simpa using hi, h⟩
  cases hp : s.fg with
  | idle => exact .inr (.inr (.inr (issueCase ⟨hf, .inl hp⟩)))
  | rdCount max =>
    rw [fgTurn_rdCount hf hp] at h
    cases h
    exact .inl ⟨max, rfl, rfl⟩
  | rdCopy n k out =>
    rw [fgTurn_rdCopy hf hp] at h
    obtain ⟨h1, h2, h3⟩ := microCpy_next h
    exact .inr (.inl ⟨n, k, out, rfl, h1, h2, h3⟩)
  | rdReset out =>
    rw [fgTurn_rdReset hf hp] at h
    cases h
    exact .inr (.inr (.inl ⟨out, rfl, rfl⟩))
  | writing => exact .inr (.inr (.inr (issueCase ⟨hf, .inr hp⟩)))

/-- Everything an interrupt step can do (R182, R183). -/
theorem svcTurn_next {w : Word} {s t : State} (h : svcTurn w s = .next t) :
    w.extractLsb' 24 8 = 0#8 ∧ SvcMayOccur s (classOf s.cfg (w.extractLsb' 17 3)) ∧
      serviceClass (classOf s.cfg (w.extractLsb' 17 3)) (w.extractLsb' 8 8) (w.extractLsb' 0 8) s = .next t := by
  have hf : s.fault.isSome = false := by
    by_contra hn
    simp only [Bool.not_eq_false] at hn
    simp [svcTurn, hn] at h
  simp only [svcTurn, hf, Bool.false_eq_true, if_false] at h
  split at h
  · cases h
  · rename_i i ws hd
    obtain ⟨hz, rfl, rfl⟩ : _ ∧ _ ∧ _ := by
      cases hi : isSvc i with
      | true => exact decode_ok_svc hd hi
      | false => simp [hi] at h
    simp only [isSvc_decodeSvc, if_true] at h
    rw [exec_svc (svcSamples_decodeSvc w)] at h
    have := svcStep_next h
    rw [causeOf, extract_extract _ _ _ _ _ (by omega)] at this
    exact ⟨hz, this⟩

/-- An SVC word that decodes is serviced (R182). -/
theorem svcTurn_of_head {w : Word} {s : State} (hz : w.extractLsb' 24 8 = 0#8)
    (h : SvcMayOccur s (classOf s.cfg (w.extractLsb' 17 3))) :
    svcTurn w s = serviceClass (classOf s.cfg (w.extractLsb' 17 3)) (w.extractLsb' 8 8) (w.extractLsb' 0 8) s := by
  have hc : causeOf (w.extractLsb' 16 8) = w.extractLsb' 17 3 := by
    rw [causeOf, extract_extract _ _ _ _ _ (by omega)]
  have := svcStep_of_mayOccur (iir := w.extractLsb' 16 8) (lsr := w.extractLsb' 8 8) (rbr := w.extractLsb' 0 8)
    (s := s) (by rwa [hc])
  simp only [svcTurn, h.1, Option.isSome_none, decode_svc hz, isSvc_decodeSvc, if_true, Bool.false_eq_true,
    if_false, exec_svc (svcSamples_decodeSvc w), this, hc]

/-- A step has a next state only as a foreground step or as an interrupt step, with its choice used up (R184). -/
theorem step_next {s t : State} (h : step s = .next t) :
    (FgMoves s ∧ fgTurn (s.setSchedule s.turns.tail) = .next t) ∨
    (¬ FgMoves s ∧ ∃ w turns, s.turns = .svc w :: turns ∧ svcTurn w (s.setSchedule turns) = .next t) := by
  by_cases hm : FgMoves s
  · rw [step_of_fgMoves hm] at h
    exact .inl ⟨hm, h⟩
  · obtain ⟨w, rest, hs⟩ := (not_fgMoves_iff s).1 hm
    rw [step_of_svc hs] at h
    exact .inr ⟨hm, w, rest, hs, h⟩

/-! ### Several steps -/

theorem runSteps_zero (s : State) : runSteps 0 s = .next s := rfl

theorem runSteps_succ {s t : State} (k : Nat) (h : step s = .next t) : runSteps (k + 1) s = runSteps k t := by
  simp [runSteps, h]

theorem runSteps_add {a : Nat} : ∀ {s t : State} (b : Nat), runSteps a s = .next t →
    runSteps (a + b) s = runSteps b t := by
  induction a with
  | zero =>
    intro s t b h
    cases h
    simp
  | succ a ih =>
    intro s t b h
    rw [show a + 1 + b = (a + b) + 1 by omega]
    cases hs : step s with
    | next s' =>
      rw [runSteps_succ _ hs] at h ⊢
      exact ih b h
    | fault r => simp [runSteps, hs] at h
    | refused r => simp [runSteps, hs] at h

end Sys2Proof.Machine
end

