-- ==== Sys2Proof/Laws/Execution.lean ====
section
/-! SUPPORT. Executions (spec R184): an agent's step neither reads nor writes the schedule, and an SVC that may occur has a
step, after which every SVC that may occur still may. -/

namespace Sys2Proof.Machine

/-! ### No agent's step reads the schedule -/

theorem serviceClass_setSchedule {c : EventClass} {lsr rbr : Byte} {s t : State} (l : List Turn)
    (h : serviceClass c lsr rbr s = .next t) : serviceClass c lsr rbr (s.setSchedule l) = .next (t.setSchedule l) := by
  have acc (r : Bool) (h : accept r rbr s = .next t) : accept r rbr (s.setSchedule l) = .next (t.setSchedule l) := by
    rcases accept_next h with ⟨hf, rfl⟩ | ⟨hf, hl, rfl⟩
    · exact accept_filtered (s := s.setSchedule l) hf
    · exact accept_appended (s := s.setSchedule l) hf hl
  cases c with
  | rls =>
    have cases3 (s : State) : serviceClass .rls lsr rbr s =
        if hasError s.cfg lsr then .next (s.emit (svcRecord true true (.lineError rbr lsr)))
        else if dataReady s.cfg lsr then accept true rbr s else .next (s.emit (svcRecord true false .noData)) := rfl
    rw [cases3] at h ⊢
    cases he : hasError s.cfg lsr with
    | true =>
      simp only [he, if_true] at h
      simp only [State.setSchedule_cfg, he, if_true]
      cases h
      rfl
    | false =>
      cases hd : dataReady s.cfg lsr with
      | true =>
        simp only [he, hd] at h
        simp only [State.setSchedule_cfg, he, hd]
        exact acc _ h
      | false =>
        simp only [he, hd] at h
        simp only [State.setSchedule_cfg, he, hd]
        cases h
        rfl
  | rda => exact acc _ h
  | thre => cases h; rfl
  | cti => cases h; rfl
  | other => cases h; rfl

theorem fgEffect_setSchedule {i : Instr} {s t : State} (l : List Turn) (h : fgEffect i s = .next t) :
    fgEffect i (s.setSchedule l) = .next (t.setSchedule l) := by
  cases i with
  | read max =>
    rcases readEffect_next h with ⟨hl, rfl⟩ | ⟨hl, hh, hb, rfl⟩ | ⟨hl, hh, hs, rfl⟩ | ⟨hl, hh, hs, rfl⟩
    · simp only [fgEffect, readEffect, State.setSchedule_length, hl, if_true]
      rfl
    · simp only [fgEffect, readEffect, drainAtomic, memReadFirst, State.setSchedule_length, State.setSchedule_cfg, hl, hh,
        hb, if_true, if_false]
      rfl
    · simp only [fgEffect, readEffect, State.setSchedule_length, State.setSchedule_cfg, hl, hh, hs, if_false]
      rfl
    · simp only [fgEffect, readEffect, State.setSchedule_length, State.setSchedule_cfg, hl, hh, hs, if_false]
      rfl
  | setf set => cases h; rfl
  | clrf => cases h; rfl
  | init => cases h; rfl
  | txb => cases h; rfl
  | txe => cases h; rfl
  | _ => cases h

theorem exec_setSchedule_of_fg {i : Instr} (hi : isSvc i = false) {s t : State} (l : List Turn)
    (h : exec i s = .next t) : exec i (s.setSchedule l) = .next (t.setSchedule l) := by
  rw [exec_fg hi] at h ⊢
  obtain ⟨hc, ⟨code, hk, rfl⟩ | ⟨hk, h⟩⟩ := issue_next h
  · exact issue_fault (s := s.setSchedule l) _ hc hk
  · rw [issue_ok (s := s.setSchedule l) _ hc hk]
    exact fgEffect_setSchedule l h

theorem fgTurn_setSchedule {s t : State} (l : List Turn) (h : fgTurn s = .next t) :
    fgTurn (s.setSchedule l) = .next (t.setSchedule l) := by
  obtain ⟨hf, ⟨max, hp, rfl⟩ | ⟨n, k, out, hp, hk, hc, rfl⟩ | ⟨out, hp, rfl⟩ | ⟨hci, w, rest, hs, h⟩⟩ := fgTurn_next h
  · exact fgTurn_rdCount (s := s.setSchedule l) hf hp
  · exact (fgTurn_rdCopy (s := s.setSchedule l) hf hp).trans (microCpy_of_lt (s := s.setSchedule l) out hk hc)
  · exact fgTurn_rdReset (s := s.setSchedule l) hf hp
  · rw [fgTurn_issue (s := s.setSchedule l) hci, fgIssue, State.setSchedule_stream, hs]
    rw [hs] at h
    rcases h with ⟨⟨e, hd⟩ | ⟨i, ws, hd, hi⟩, rfl⟩ | ⟨i, ws, hd, hi, h⟩
    · simp only [hd]
      rfl
    · simp only [hd, hi, if_true]
      rfl
    · simp only [hd, hi]
      exact exec_setSchedule_of_fg hi l h

theorem svcTurn_setSchedule {w : Word} {s t : State} (l : List Turn) (h : svcTurn w s = .next t) :
    svcTurn w (s.setSchedule l) = .next (t.setSchedule l) := by
  obtain ⟨hz, hm, h⟩ := svcTurn_next h
  exact (svcTurn_of_head (s := s.setSchedule l) hz hm).trans (serviceClass_setSchedule l h)

theorem agentStep_setSchedule {c : Turn} {s t : State} (l : List Turn) (h : agentStep c s = .next t) :
    agentStep c (s.setSchedule l) = .next (t.setSchedule l) := by
  cases c with
  | fg => exact fgTurn_setSchedule l h
  | svc w => exact svcTurn_setSchedule l h

/-- Nor does it write it. -/
theorem agentStep_schedule {c : Turn} {s t : State} (h : agentStep c s = .next t) : t.schedule = s.schedule := by
  have h' := agentStep_setSchedule s.schedule h
  rw [show s.setSchedule s.schedule = s from rfl, h] at h'
  rw [Host.Outcome.next.inj h']
  rfl

/-! ### SVCs without end -/

/-- An SVC word whose class may occur has a step, which leaves the foreground where it is, emits one record and lets the same
classes occur (R113, R183, R188). -/
theorem svcTurn_of_mayOccur {w : Word} {s : State} (hz : w.extractLsb' 24 8 = 0#8) (hl : s.length < s.cfg.capacity)
    (hm : SvcMayOccur s (classOf s.cfg (w.extractLsb' 17 3))) :
    ∃ t, svcTurn w s = .next t ∧ t.fg = s.fg ∧ t.stream = s.stream ∧ t.index = s.index ∧ t.cfg = s.cfg ∧
      t.schedule = s.schedule ∧ t.recurring = s.recurring ∧ t.length < t.cfg.capacity ∧
      t.trace.length = s.trace.length + 1 ∧ ∀ c, SvcMayOccur t c ↔ SvcMayOccur s c := by
  rw [svcTurn_of_head hz hm]
  have acc (r : Bool) (b : Byte) : ∃ t, accept r b s = .next t := by
    by_cases hf : FilterDrops s.cfg s.filter b
    · exact ⟨_, accept_filtered hf⟩
    · exact ⟨_, accept_appended hf hl⟩
  have total : ∃ t, serviceClass (classOf s.cfg (w.extractLsb' 17 3)) (w.extractLsb' 8 8) (w.extractLsb' 0 8) s =
      .next t := by
    cases classOf s.cfg (w.extractLsb' 17 3) with
    | rls =>
      simp only [serviceClass, serviceRls]
      split
      · exact ⟨_, rfl⟩
      · split
        · exact acc _ _
        · exact ⟨_, rfl⟩
    | rda => exact acc _ _
    | thre => exact ⟨_, rfl⟩
    | cti => exact ⟨_, rfl⟩
    | other => exact ⟨_, rfl⟩
  obtain ⟨t, ht⟩ := total
  refine ⟨t, ht, ?_⟩
  rcases serviceClass_next ht with ⟨o, -, -, rfl⟩ | ⟨o, -, -, -, -, -, rfl⟩
  · exact ⟨rfl, rfl, rfl, rfl, rfl, rfl, hl, by simp [State.emit], fun _ => Iff.rfl⟩
  · exact ⟨rfl, rfl, rfl, rfl, rfl, rfl, lengthAfterAppend_lt hl, by simp [appendedState], fun _ => Iff.rfl⟩

end Sys2Proof.Machine
end

