-- ==== Sys2Proof/Laws/PerInstr.lean ====
section
/-! SUPPORT. What is said of every operation as syntax, one lemma per constructor. Family OperationWords: an operation has
as many words as its OP says (spec R70, R81), and its OP is 0 exactly when it is SVC (R70, R71). -/

namespace Sys2Proof.Laws.OperationWords

open Sys2Proof.Machine

/-- The words of an operation against its OP field. -/
def Statement (i : Instr) : Prop :=
  (encode i).length = lengthByOp (firstWord i) ∧ (isSvc i = true ↔ opField (firstWord i) = 0#4)

theorem op_encodeSvc (iir lsr rbr : Byte) : opField (encodeSvc iir lsr rbr) = 0#4 := by
  have := extract_extract (encodeSvc iir lsr rbr) 24 8 4 4 (by omega)
  rw [encodeSvc_head] at this
  exact this.symm.trans (by decide)

/-- Every SVC. -/
theorem of_samples {i : Instr} {iir lsr rbr : Byte} (h : svcSamples i = some (iir, lsr, rbr)) : Statement i := by
  have hw : firstWord i = encodeSvc iir lsr rbr := by simp [firstWord, encode_of_samples h]
  exact ⟨by simp [encode_of_samples h, hw, lengthByOp, op_encodeSvc],
    by simp [isSvc_of_samples h, hw, op_encodeSvc]⟩

theorem svcOther0 (iirHi : BitVec 4) (iir0 : BitVec 1) (lsr rbr : Byte) : Statement (.svcOther0 iirHi iir0 lsr rbr) :=
  of_samples rfl

theorem svcThre (iirHi : BitVec 4) (iir0 : BitVec 1) (lsr rbr : Byte) : Statement (.svcThre iirHi iir0 lsr rbr) :=
  of_samples rfl

theorem svcRda (iirHi : BitVec 4) (iir0 : BitVec 1) (lsr rbr : Byte) : Statement (.svcRda iirHi iir0 lsr rbr) :=
  of_samples rfl

theorem svcRls (iirHi : BitVec 4) (iir0 : BitVec 1) (lsr rbr : Byte) : Statement (.svcRls iirHi iir0 lsr rbr) :=
  of_samples rfl

theorem svcOther4 (iirHi : BitVec 4) (iir0 : BitVec 1) (lsr rbr : Byte) : Statement (.svcOther4 iirHi iir0 lsr rbr) :=
  of_samples rfl

theorem svcOther5 (iirHi : BitVec 4) (iir0 : BitVec 1) (lsr rbr : Byte) : Statement (.svcOther5 iirHi iir0 lsr rbr) :=
  of_samples rfl

theorem svcCti (iirHi : BitVec 4) (iir0 : BitVec 1) (lsr rbr : Byte) : Statement (.svcCti iirHi iir0 lsr rbr) :=
  of_samples rfl

theorem svcOther7 (iirHi : BitVec 4) (iir0 : BitVec 1) (lsr rbr : Byte) : Statement (.svcOther7 iirHi iir0 lsr rbr) :=
  of_samples rfl

theorem read (max : Nat) : Statement (.read max) := by
  have hop : opField (firstWord (.read max)) = 1#4 := by
    refine BitVec.eq_of_getLsbD_eq fun i hi => ?_
    interval_cases i <;> simp [opField, firstWord, encode]
  refine ⟨?_, ?_⟩
  · rw [lengthByOp, hop]; rfl
  · rw [hop]; simp [isSvc, svcSamples]

theorem setf (set : ByteSet) : Statement (.setf set) :=
  ⟨show 9 = lengthByOp 0x20000000 by decide, show isSvc (.setf set) = true ↔ opField 0x20000000 = 0#4 by
    simp [isSvc, svcSamples, opField]⟩

theorem clrf : Statement .clrf := ⟨rfl, by decide⟩

theorem init : Statement .init := ⟨rfl, by decide⟩

theorem txb : Statement .txb := ⟨rfl, by decide⟩

theorem txe : Statement .txe := ⟨rfl, by decide⟩

end Sys2Proof.Laws.OperationWords
end

