-- ==== Sys2Proof/Tests/Slice0.lean ====
section
/-! SUPPORT. Tests. Expected values come from the vectors of spec/95_test_vectors.md (V and T numbers below) or from the
encodings and rules cited. -/

namespace Sys2Proof.Tests

open Sys2Proof.Machine

/-- The next state, where there is one. -/
def next? : Host.Outcome State Fault Refusal → Option State
  | .next t => some t
  | .fault _ => none
  | .refused _ => none

/-- Why there is no step, where there is none. -/
def stop? : Host.Outcome State Fault Refusal → Option Fault
  | .next _ => none
  | .fault f => some f
  | .refused _ => none

/-- The vectors' state `I`: after INIT. -/
def stateI : State := { State.reset with initialized := true, ienRda := true, ienThre := true, ienRls := true }

/-- The vectors' state `Ahi`: 'h' and 'i' received. -/
def ahi : State := { stateI with storage := [(0, 0x68), (1, 0x69)], length := 2 }

/-- The vectors' state `H5`: "hello" received. -/
def h5 : State :=
  { stateI with storage := [(0, 0x68), (1, 0x65), (2, 0x6C), (3, 0x6C), (4, 0x6F)], length := 5 }

/-- `s` with the capacity N. -/
def withCapacity (n : Nat) (s : State) : State := { s with cfg := { s.cfg with capacity := n } }

/-- `s` with the words of a foreground program. -/
def withStream (ws : List Word) (s : State) : State := { s with stream := ws }

/-- `s` with the next choices of the schedule. -/
def withTurns (turns : List Turn) (s : State) : State := { s with schedule := turns }

/-- The last record of the state's trace. -/
def lastRecord (s : State) : Option Observation := s.trace.getLast?

/-- The set {0x0A, 0x0D} of the filter text "\r\n" (R77). -/
def crlf : ByteSet := 0x2400

/-! ## Well-formedness and parameters -/

theorem test_wf_read_operand_has_16_bits : (Instr.read 65536).wf = false ∧ (Instr.read 65535).wf = true := by decide

theorem test_default_parameters_are_legal : Config.default.Legal := by decide

theorem test_capacity_zero_is_not_legal : ¬ Config.Legal { capacity := 0 } := by decide

theorem test_capacity_above_65535_is_not_legal : ¬ Config.Legal { capacity := 65536 } := by decide

theorem test_equal_causes_are_not_legal : ¬ Config.Legal { causeCti := 2 } := by decide

theorem test_equal_lsr_positions_are_not_legal : ¬ Config.Legal { lsrOe := 0 } := by decide

/-! ## Decoding: words written out from R72 to R77, V130 to V141 -/

theorem test_decode_svc_other0 : decode [0x00000000] = .ok (.svcOther0 0 0 0 0, []) := by rfl
theorem test_decode_svc_thre : decode [0x00030041] = .ok (.svcThre 0 1 0 0x41, []) := by rfl
theorem test_decode_svc_rda : decode [0x00C49E41] = .ok (.svcRda 0xC 0 0x9E 0x41, []) := by rfl
theorem test_decode_svc_rls : decode [0x00070141] = .ok (.svcRls 0 1 0x01 0x41, []) := by rfl
theorem test_decode_svc_other4 : decode [0x00080041] = .ok (.svcOther4 0 0 0 0x41, []) := by rfl
theorem test_decode_svc_other5 : decode [0x000A0041] = .ok (.svcOther5 0 0 0 0x41, []) := by rfl
theorem test_decode_svc_cti : decode [0x000C0041] = .ok (.svcCti 0 0 0 0x41, []) := by rfl
theorem test_decode_svc_other7 : decode [0x00FFFFFF] = .ok (.svcOther7 0xF 1 0xFF 0xFF, []) := by rfl
theorem test_decode_read : decode [0x1000FFFF] = .ok (.read 65535, []) := by rfl
theorem test_decode_setf : decode [0x20000000, 0x2400, 0, 0, 0, 0, 0, 0, 0, 5] = .ok (.setf crlf, [5]) := by rfl
theorem test_decode_clrf : decode [0x30000000, 5] = .ok (.clrf, [5]) := by rfl
theorem test_decode_init : decode [0x40000000] = .ok (.init, []) := by rfl
theorem test_decode_txb : decode [0x50000000] = .ok (.txb, []) := by rfl
theorem test_decode_txe : decode [0x60000000] = .ok (.txe, []) := by rfl
theorem test_decode_svc_reserved : decode [0x0F000000] = .error .reservedField := by rfl
theorem test_decode_read_reserved : decode [0x10010000] = .error .reservedField := by rfl
theorem test_decode_setf_reserved : decode [0x28000000, 0, 0, 0, 0, 0, 0, 0, 0] = .error .reservedField := by rfl
theorem test_decode_setf_truncated : decode [0x20000000, 0, 0, 0, 0, 0, 0, 0] = .error .truncatedPayload := by rfl
theorem test_decode_clrf_reserved : decode [0x30000001] = .error .reservedField := by rfl
theorem test_decode_init_reserved : decode [0x4000F000] = .error .reservedField := by rfl
theorem test_decode_reserved_op : decode [0x70000000] = .error .reservedOp ∧ decode [0xFFFFFFFF] = .error .reservedOp := by
  exact ⟨by rfl, by rfl⟩
theorem test_encode_setf : encode (.setf crlf) = [0x20000000, 0x2400, 0, 0, 0, 0, 0, 0, 0] := by decide
theorem test_encode_read : encode (.read 64) = [0x10000040] := by decide
theorem test_table_word : decodeTableWord 32 0x00060158 = some (.svcRls 0 0 0x01 0x58) := by decide
theorem test_table_word_setf : decodeTableWord 32 0x20000000 = some (.setf 0) := by decide

/-! ## Flags -/

/-- R33: ERR_MASK is 0x9E with the default positions. -/
theorem test_err_mask_default : errMask Config.default = 0x9E := by decide

/-- R36: RDA is bit 0, THRE bit 1, RLS bit 2. -/
theorem test_ier_positions : ier { stateI with ienRda := false, ienThre := false } = 4 := by decide

/-! ## SVC: V1 to V55 -/

theorem test_V1_rls_no_flags : (next? (exec (.svcRls 0 0 0x00 0x58) ahi)).map (fun t => (t.length, lastRecord t)) =
    some (2, some (.svc ⟨true, true, false, .noData⟩)) := by decide

theorem test_V4_rls_error_wins_over_data_ready : (next? (exec (.svcRls 0 0 0x03 0x58) ahi)).map
    (fun t => (t.length, t.storage, lastRecord t)) =
    some (2, ahi.storage, some (.svc ⟨true, true, true, .lineError 0x58 0x03⟩)) := by decide

theorem test_V12_rls_accepts : (next? (exec (.svcRls 0 0 0x61 0x58) ahi)).map
    (fun t => (t.length, Memory.read t.storage 2, lastRecord t)) =
    some (3, some 0x58, some (.svc ⟨true, true, true, .appended 0x58⟩)) := by decide

theorem test_V21_rda_ignores_lsr : (next? (exec (.svcRda 0 0 0x9E 0x41) ahi)).map
    (fun t => (t.length, Memory.read t.storage 2, lastRecord t)) =
    some (3, some 0x41, some (.svc ⟨true, false, true, .appended 0x41⟩)) := by decide

theorem test_V26_rda_filter_last_bit : (next? (exec (.svcRda 0 0 0 0xFF) { stateI with filter := some (1 <<< 255) })).map
    (fun t => (t.length, lastRecord t)) = some (0, some (.svc ⟨true, false, true, .filtered 0xFF⟩)) := by decide

theorem test_V31_nul_match : (next? (exec (.svcRda 0 0 0 0x00)
    { stateI with filter := some 0, cfg := { nulMatch := true } })).map lastRecord =
    some (some (.svc ⟨true, false, true, .filtered 0⟩)) := by decide

theorem test_V40_thre : (next? (exec (.svcThre 0 0 0 0) ahi)).map (fun t => (t.length, lastRecord t)) =
    some (2, some (.svc ⟨true, false, false, .ignored .thre⟩)) := by decide

theorem test_V43_cti_reads_no_byte : (next? (exec (.svcCti 0 0 0 0x41) ahi)).map (fun t => (t.length, lastRecord t)) =
    some (2, some (.svc ⟨true, false, false, .ignored .cti⟩)) := by decide

theorem test_V44_other0 : (next? (exec (.svcOther0 0 0 0 0x41) ahi)).map lastRecord =
    some (some (.svc ⟨true, false, false, .ignored .other⟩)) := by decide

theorem test_V46_other4_follows_the_cause_parameter :
    (next? (exec (.svcOther4 0 0 0 0x41) ahi)).map (·.length) = some 2 ∧
    (next? (exec (.svcOther4 0 0 0 0x41) { ahi with cfg := { causeRda := 4 } })).map (·.length) = some 3 := by decide

theorem test_V47_other5 : (next? (exec (.svcOther5 0 0 0 0x41) ahi)).map lastRecord =
    some (some (.svc ⟨true, false, false, .ignored .other⟩)) := by decide

theorem test_V48_other7 : (next? (exec (.svcOther7 0 0 0 0x41) ahi)).map lastRecord =
    some (some (.svc ⟨true, false, false, .ignored .other⟩)) := by decide

theorem test_V51_append_wraps : (next? (exec (.svcRda 0 0 0 0x5A) { stateI with length := 63 })).map
    (fun t => (t.length, t.storage)) = some (0, [(63, 0x5A)]) := by decide

theorem test_V53_capacity_one : (next? (exec (.svcRda 0 0 0 0x42) (withCapacity 1 stateI))).map
    (fun t => (t.length, t.storage)) = some (0, [(0, 0x42)]) := by decide

/-! ## When an SVC has a step: V60 to V66 -/

theorem test_V60_rda_before_init : stop? (step (withTurns [.svc 0x00040041] State.reset)) = some .svcBeforeInit := by
  decide

theorem test_V60_rda_in_bracket : stop? (step (withTurns [.svc 0x00040041]
    { stateI with ienRda := false, fg := .writing })) = some .svcDisabled := by decide

theorem test_V61_cti_in_bracket_ungated : (next? (step (withTurns [.svc 0x000C0041]
    { stateI with ienRda := false, fg := .writing, cfg := { gateByEnable := false } }))).map (·.length) = some 0 := by
  decide

theorem test_V62_rls_in_bracket : (next? (step (withTurns [.svc 0x00060158]
    { stateI with ienRda := false, fg := .writing }))).map (·.length) = some 1 := by decide

theorem test_V65_V66_not_svc_words :
    stop? (step (withTurns [.svc 0x01040041] stateI)) = some .svcIllegalWord ∧
    stop? (step (withTurns [.svc 0x10000000] stateI)) = some .svcIllegalWord := by decide

/-! ## Foreground operations and their faults: V70 to V128 -/

theorem test_V70_empty_read : (next? (step (withStream [0x10000040] stateI))).map
    (fun t => (t.fg, t.length, t.trace)) = some (.idle, 0, [.readResult 0 []]) := by decide

theorem test_V71_read_check : (next? (step (withStream [0x10000040] h5))).map (·.fg) = some (.rdCopy 5 0 []) := by decide

theorem test_V71_hello : (next? (runSteps 7 (withStream [0x10000040] h5))).map
    (fun t => (t.fg, t.length, t.trace)) = some (.idle, 0, [.readResult 5 [0x68, 0x65, 0x6C, 0x6C, 0x6F]]) := by decide

theorem test_V78_hardened : (next? (step (withStream [0x10000003] { h5 with cfg := { hardenedDrain := true } }))).map
    (fun t => (t.fg, t.length, t.trace)) = some (.idle, 0, [.readResult 3 [0x68, 0x65, 0x6C]]) := by decide

theorem test_V90_setf : (next? (step (withStream [0x20000000, 0x2400, 0, 0, 0, 0, 0, 0, 0] stateI))).map
    (fun t => (t.filter, t.stream, t.index)) = some (some crlf, [], 1) := by decide

theorem test_V97_clrf : (next? (step (withStream [0x30000000] { stateI with filter := some crlf }))).map (·.filter) =
    some none := by decide

theorem test_V100_init : (next? (step (withStream [0x40000000] State.reset))).map
    (fun t => (t.initialized, t.ienRda, t.ienThre, t.ienRls, t.fault)) = some (true, true, true, true, none) := by decide

theorem test_V101_txb : (next? (step (withStream [0x50000000] stateI))).map
    (fun t => (t.ienRda, t.ienThre, t.ienRls, t.fg)) = some (false, true, true, .writing) := by decide

theorem test_V102_txe : (next? (step (withStream [0x60000000] { stateI with ienRda := false, fg := .writing }))).map
    (fun t => (t.ienRda, t.fg)) = some (true, .idle) := by decide

theorem test_V110_read_before_init : (next? (step (withStream [0x10000004] State.reset))).map (·.fault) =
    some (some ⟨.notInit, 0x10000004, 0⟩) := by decide

theorem test_V114_not_init_before_tx_state : (next? (step (withStream [0x60000000] State.reset))).map (·.fault) =
    some (some ⟨.notInit, 0x60000000, 0⟩) := by decide

theorem test_V115_reinit : (next? (runSteps 2 (withStream [0x40000000, 0x40000000] State.reset))).map (·.fault) =
    some (some ⟨.reInit, 0x40000000, 1⟩) := by decide

theorem test_V118_setf_in_bracket : (next? (runSteps 3 (withStream
    [0x40000000, 0x50000000, 0x20000000, 0, 0, 0, 0, 0, 0, 0, 0] State.reset))).map (fun t => (t.fault, t.fg)) =
    some (some ⟨.fgBusy, 0x20000000, 2⟩, .writing) := by decide

theorem test_V119_reinit_before_busy : (next? (step (withStream [0x40000000] { stateI with fg := .writing }))).map
    (·.fault) = some (some ⟨.reInit, 0x40000000, 0⟩) := by decide

theorem test_V120_txe_without_bracket : (next? (runSteps 2 (withStream [0x40000000, 0x60000000] State.reset))).map
    (·.fault) = some (some ⟨.txState, 0x60000000, 1⟩) := by decide

theorem test_V121_illegal_first : (next? (step (withStream [0x40000001] State.reset))).map (·.fault) =
    some (some ⟨.illegal, 0x40000001, 0⟩) := by decide

theorem test_V126_truncated_setf : (next? (step (withStream [0x20000000, 0, 0, 0] stateI))).map (·.fault) =
    some (some ⟨.illegal, 0x20000000, 0⟩) := by decide

theorem test_V127_svc_in_stream : (next? (step (withStream [0x00040041] stateI))).map (fun t => (t.fault, t.length)) =
    some (some ⟨.illegal, 0x00040041, 0⟩, 0) := by decide

/-- R185: after a fault no agent has a step. -/
theorem test_fault_is_sticky : stop? (step (withTurns [.svc 0x00020000]
    { stateI with fault := some ⟨.illegal, 0x70000000, 0⟩ })) = some .haltedByFault := by decide

/-! ## The drain's hazards: V80 to V83 and P5, from the step where they happen -/

theorem test_V80_raced_byte_is_lost : (next? (runSteps 2 (withTurns [.svc 0x00040021, .fg]
    { h5 with fg := .rdReset [0x68] }))).map (fun t => (t.length, Memory.read t.storage 5)) = some (0, some 0x21) := by
  decide

theorem test_V83_count_after_wrap : (next? (step { stateI with
    fg := .rdCount 4, cfg := { capacity := 4, readLenSample := .atCopy } })).map (·.fg) = some (.rdReset []) := by decide

theorem test_P5_torn_copy : (next? (step { stateI with
    cfg := { capacity := 4 }, storage := [(0, 0x45), (1, 0x42), (2, 0x43), (3, 0x44)], length := 1
    fg := .rdCopy 3 0 [] })).map (·.fg) = some (.rdCopy 3 1 [0x45]) := by decide

/-- R184, R225: a character timeout that recurs without end leaves the program waiting. -/
theorem test_recurring_cti_starves : (next? (runSteps 3 { stateI with
    recurring := [.svc 0x000C0000], stream := [0x10000040] })).map (fun t => (t.stream, t.trace.length)) =
    some ([0x10000040], 3) := by decide

/-! ## The host's placing of one operation -/

theorem test_fetch_init : (next? (step (State.reset.withFetchWord 32 0x40000000))).map (·.initialized) = some true := by
  decide

theorem test_fetch_rda : (next? (step (State.reset.withFetchWord 32 0x00040068))).map (fun t => (t.length, t.storage)) =
    some (1, [(0, 0x68)]) := by decide

theorem test_fetch_setf : (next? (step (stateI.withFetchWord 32 0x20000000))).map (fun t => (t.filter, t.stream)) =
    some (some 0, []) := by decide

theorem test_fetch_inside_read : (next? (step ({ h5 with fg := .rdCopy 5 0 [] }.withFetchWord 32 0x50000000))).map
    (·.fg) = some .writing := by decide

/-! ## The assembler: R83, R84 -/

theorem test_asm_rx_char : assembleText ['r', 'x', ' ', '\'', 'h', '\''] = some [0x00040068] := by decide

theorem test_asm_svc : assembleText ['s', 'v', 'c', ' ', '0', 'x', '0', '6', ',', ' ', '3', ',', '\'', '\\', 'n', '\''] =
    some [0x0006030A] := by decide

/-- The filter text of R77's example. -/
theorem test_asm_setf_text : assembleText ['s', 'e', 't', 'f', ' ', '"', '\\', 'r', '\\', 'n', '"', ' ', ';', 'x'] =
    some [0x20000000, 0x2400, 0, 0, 0, 0, 0, 0, 0] := by decide

/-- V94: the set of 0x20 and 0x41. Codes 123 and 125 are the braces. -/
theorem test_asm_setf_list : assembleText (['s', 'e', 't', 'f', ' ', Char.ofNat 123, '0', 'x', '2', '0', ',', '6', '5',
    Char.ofNat 125]) = some [0x20000000, 0, 1, 2, 0, 0, 0, 0, 0] := by decide

theorem test_asm_write : assembleText ['w', 'r', 'i', 't', 'e'] = some [0x50000000, 0x60000000] := by decide

theorem test_asm_refuses : assembleText ['r', 'e', 'a', 'd', ' ', '6', '5', '5', '3', '6'] = none ∧
    assembleText ['r', 'x', ' ', '2', '5', '6'] = none ∧ assembleText ['n', 'o', 'p'] = none := by decide

end Sys2Proof.Tests
end

