-- ==== Sys2Proof/Tests/Witnesses.lean ====
section
/-! SUPPORT. Witnesses: for every statement of Obligations.lean with hypotheses, a concrete state and operands that meet
all of them together, clause by clause, at the boundaries of their ranges. -/

namespace Sys2Proof.Tests

open Sys2Proof.Machine

/-- 'A', 'B' and 'C' received, one below the capacity 4. -/
def abc : State := withCapacity 4 { stateI with storage := [(0, 0x41), (1, 0x42), (2, 0x43)], length := 3 }

/-- `stateI` inside a write bracket. -/
def bracket : State := { stateI with ienRda := false, fg := .writing }

/-- Every check of the invariant but the phase's, on a concrete state. -/
theorem inv_of_phase (s : State) (hp : PhaseInv s)
    (h : s.cfg.Legal ∧ Memory.wf s.storage ∧ (∀ c ∈ s.storage, c.1 < s.cfg.capacity) ∧ s.length < s.cfg.capacity ∧
      (∀ i, i < s.length → (Memory.read s.storage i).isSome = true) ∧
      (s.initialized = false → s.length = 0 ∧ s.filter = none ∧ s.fg = .idle ∧
        s.ienRda = false ∧ s.ienThre = false ∧ s.ienRls = false) ∧
      (s.initialized = true → s.ienThre = true ∧ s.ienRls = true ∧ (s.ienRda = true ↔ s.fg ≠ .writing))) :
    BlockInv s :=
  ⟨h.1, h.2.1, h.2.2.1, h.2.2.2.1, h.2.2.2.2.1, hp, h.2.2.2.2.2.1, h.2.2.2.2.2.2⟩

theorem inv_reset : BlockInv State.reset := inv_of_phase _ trivial (by decide)
theorem inv_stateI : BlockInv stateI := inv_of_phase _ trivial (by decide)
theorem inv_abc : BlockInv abc := inv_of_phase _ trivial (by decide)
theorem inv_bracket : BlockInv bracket := inv_of_phase _ trivial (by decide)

/-- After INIT every class may occur. -/
theorem mayOccur_stateI (c : EventClass) : SvcMayOccur stateI c :=
  ⟨rfl, rfl, fun _ => ⟨fun _ => rfl, fun _ => rfl, fun _ => rfl, fun _ => rfl⟩⟩

theorem mayOccur_abc (c : EventClass) : SvcMayOccur abc c :=
  ⟨rfl, rfl, fun _ => ⟨fun _ => rfl, fun _ => rfl, fun _ => rfl, fun _ => rfl⟩⟩

/-! ## Encoding -/

theorem witness_DecodeUndoesEncode : (Instr.read 65535).wf = true ∧ (Instr.svcOther7 15 1 255 255).wf = true := by
  decide

theorem witness_EncodeUndoesDecode : decode [0x1000FFFF, 7] = .ok (.read 65535, [7]) := by rfl

theorem witness_EveryCauseDecodesToSvc : (0x00FFFFFF : Word).extractLsb' 24 8 = 0#8 := by decide

theorem witness_CauseFieldSelectsTheClass : Config.default.Legal ∧ (0xFD : Byte).extractLsb' 1 3 = Config.default.causeCti := by
  decide

/-! ## Steps and the invariant -/

theorem witness_ForegroundStepRunsDecodedOperation :
    let s := withStream [0x40000000] State.reset
    CanIssue s ∧ FgMoves s ∧ decode s.stream = .ok (.init, []) ∧ isSvc .init = false :=
  ⟨⟨rfl, .inl rfl⟩, .inl rfl, rfl, rfl⟩

theorem witness_InterruptStepRunsDecodedSvc :
    let s := withTurns [.svc 0x00040041] stateI
    s.fault = none ∧ s.turns = [.svc 0x00040041] ∧
      decode [0x00040041] = .ok (.svcRda 0 0 0 0x41, []) ∧ isSvc (.svcRda 0 0 0 0x41) = true :=
  ⟨rfl, rfl, rfl, rfl⟩

/-- Both sides of the equivalence occur: with an operation left to issue, and with none. -/
theorem witness_ForegroundStepsExactlyWhen :
    (BlockInv (withStream [0x40000000] State.reset) ∧ FgMoves (withStream [0x40000000] State.reset) ∧
      (withStream [0x40000000] State.reset).stream ≠ []) ∧
    (BlockInv State.reset ∧ FgMoves State.reset ∧ State.reset.stream = []) :=
  ⟨⟨inv_of_phase _ trivial (by decide), .inl rfl, by decide⟩, inv_reset, .inl rfl, rfl⟩

theorem witness_SvcStepsExactlyWhen :
    BlockInv (withTurns [.svc 0x000C0041] bracket) ∧ (withTurns [.svc 0x000C0041] bracket).turns = [.svc 0x000C0041] ∧
      BlockInv (withTurns [.svc 0x00060041] bracket) :=
  ⟨inv_of_phase _ trivial (by decide), rfl, inv_of_phase _ trivial (by decide)⟩

theorem witness_InvariantHoldsAtReset : Config.Legal { capacity := 1 } ∧ Config.Legal { capacity := 65535 } := by decide

theorem witness_InvariantKeptByEveryStep :
    BlockInv (withTurns [.svc 0x00040044] abc) ∧ ∃ t, step (withTurns [.svc 0x00040044] abc) = .next t ∧ t.length = 0 :=
  ⟨inv_of_phase _ trivial (by decide), _, rfl, rfl⟩

/-! ## The interrupt service family -/

/-- Each clause: an error at bit 7, a byte that the filter drops, the append that wraps, and no data. -/
theorem witness_LineStatusServiceResult :
    SvcMayOccur abc .rls ∧ (iirOf 0 3 0).extractLsb' 1 3 = abc.cfg.causeRls ∧
    LineErrorFlag abc.cfg 0x80 ∧
    (¬ LineErrorFlag abc.cfg 0x61 ∧ (0x61 : Byte).getLsbD abc.cfg.lsrDr.val = true ∧
      FilterDrops abc.cfg (some (1 <<< 255)) 0xFF ∧ ¬ FilterDrops abc.cfg abc.filter 0xFF ∧
      abc.length + 1 = abc.cfg.capacity) ∧
    (¬ LineErrorFlag abc.cfg 0x60 ∧ (0x60 : Byte).getLsbD abc.cfg.lsrDr.val = false) :=
  ⟨mayOccur_abc _, by decide, .inr (.inr (.inr (.inr rfl))),
    ⟨by unfold LineErrorFlag; decide, by decide, ⟨_, rfl, .inl (by decide)⟩, (by rintro ⟨_, h, _⟩; cases h), by decide⟩,
    by unfold LineErrorFlag; decide, by decide⟩

theorem witness_ReceiveDataServiceResult :
    abc.cfg.Legal ∧ SvcMayOccur abc .rda ∧ (iirOf 0xC 2 0).extractLsb' 1 3 = abc.cfg.causeRda ∧
    FilterDrops { nulMatch := true } (some 0) 0 ∧ ¬ FilterDrops abc.cfg (some 0) 0 ∧ abc.length < abc.cfg.capacity :=
  ⟨by decide, mayOccur_abc _, by decide, ⟨_, rfl, .inr (by decide)⟩,
    by rintro ⟨_, h, h' | h'⟩ <;> cases h <;> revert h' <;> decide, by decide⟩

theorem witness_IgnoredServiceResult :
    stateI.cfg.Legal ∧ (∀ c, SvcMayOccur stateI c) ∧ (iirOf 0 1 0).extractLsb' 1 3 = stateI.cfg.causeThre ∧
    (iirOf 0 6 0).extractLsb' 1 3 = stateI.cfg.causeCti ∧
    (∀ c ∈ [0#3, 4#3, 5#3, 7#3], (iirOf 0 c 0).extractLsb' 1 3 ∉
      [stateI.cfg.causeRls, stateI.cfg.causeRda, stateI.cfg.causeThre, stateI.cfg.causeCti]) :=
  ⟨by decide, mayOccur_stateI, by decide, by decide, by decide⟩

/-- One of each SVC constructor, in a state that allows every class, with the buffer one below capacity. -/
theorem witness_SvcCompletesWithItsFrame :
    (∀ i ∈ [Instr.svcOther0 0 0 0 0, .svcThre 0 0 0 0, .svcRda 0 0 0 0, .svcRls 0 0 0 0, .svcOther4 0 0 0 0,
      .svcOther5 0 0 0 0, .svcCti 0 0 0 0, .svcOther7 0xF 1 0xFF 0xFF], ∃ iir lsr rbr,
        svcSamples i = some (iir, lsr, rbr) ∧ SvcMayOccur abc (classOf abc.cfg (causeOf iir))) ∧
    abc.length < abc.cfg.capacity := by
  refine ⟨fun i hi => ?_, by decide⟩
  simp only [List.mem_cons, List.not_mem_nil, or_false] at hi
  obtain rfl | rfl | rfl | rfl | rfl | rfl | rfl | rfl := hi <;> exact ⟨_, _, _, rfl, mayOccur_abc _⟩

theorem witness_FilteredByteNeverGrowsBuffer :
    svcSamples (.svcRls 0 0 0x01 0x0A) = some (iirOf 0 3 0, 0x01, 0x0A) ∧
    FilterDrops stateI.cfg (some crlf) 0x0A ∧ ∃ t, exec (.svcRls 0 0 0x01 0x0A) { stateI with filter := some crlf } = .next t :=
  ⟨rfl, ⟨_, rfl, .inl (by decide)⟩, _, rfl⟩

theorem witness_SvcBlindToForeground :
    isSvc (.svcRda 0 0 0 0x44) = true ∧ ∃ t, exec (.svcRda 0 0 0 0x44) abc = .next t := ⟨rfl, _, rfl⟩

/-- At capacity 4, four bytes: the batch that wraps. -/
theorem witness_BatchFillsInOrderAndWrapsAtCapacity :
    let bytes : List Byte := [0x41, 0x42, 0x43, 0x44]
    let s := withCapacity 4 (withTurns (bytes.map fun b => Turn.svc (0x00040000 ||| b.setWidth 32)) stateI)
    BlockInv s ∧ SvcMayOccur s .rda ∧ s.filter = none ∧ s.length = 0 ∧ s.cfg.causeRda = 2 ∧
      bytes.length = s.cfg.capacity :=
  ⟨inv_of_phase _ trivial (by decide), mayOccur_stateI _, rfl, rfl, rfl, rfl⟩

/-! ## The foreground operations -/

/-- The first check: an `Illegal` word, and an SVC word, inside a bracket. -/
theorem witness_IssueChecksInOrder_illegal :
    CanIssue (withStream [0x70000000] bracket) ∧ FgMoves (withStream [0x70000000] bracket) ∧
      decode [0x70000000] = .error .reservedOp ∧
      decode [0x00040041] = .ok (.svcRda 0 0 0 0x41, []) ∧ isSvc (.svcRda 0 0 0 0x41) = true :=
  ⟨⟨rfl, .inr rfl⟩, .inl rfl, rfl, rfl, rfl⟩

/-- The other checks: each clause's conditions, and a state where none applies. -/
theorem witness_IssueChecksInOrder :
    (CanIssue bracket ∧ bracket.initialized = true ∧ bracket.fg = .writing) ∧
    (CanIssue State.reset ∧ State.reset.initialized = false) ∧
    (CanIssue stateI ∧ stateI.initialized = true ∧ stateI.fg ≠ .writing ∧
      ∃ t, exec (.read 65535) stateI = .next t) :=
  ⟨⟨⟨rfl, .inr rfl⟩, rfl, rfl⟩, ⟨⟨rfl, .inl rfl⟩, rfl⟩, ⟨rfl, .inl rfl⟩, rfl, by decide, _, rfl⟩

theorem witness_FaultsArePreciseAndSticky :
    ∃ t r, step (withStream [0x60000000] stateI) = .next t ∧ t.fault = some r ∧ t.fault ≠ none :=
  ⟨_, _, rfl, rfl, by decide⟩

theorem witness_FaultLeavesTheStream : ∃ t r, step (withStream [0x60000000] stateI) = .next t ∧ t.fault = some r :=
  ⟨_, _, rfl, rfl⟩

/-- Each of the five faults is raised from a state of the invariant. -/
theorem witness_FaultCodesAndTheirCauses :
    (BlockInv (withStream [0x10000004] State.reset) ∧ ∃ t, step (withStream [0x10000004] State.reset) = .next t ∧
      t.fault = some ⟨.notInit, 0x10000004, 0⟩) ∧
    (BlockInv (withStream [0x40000000] bracket) ∧ ∃ t, step (withStream [0x40000000] bracket) = .next t ∧
      t.fault = some ⟨.reInit, 0x40000000, 0⟩) ∧
    (BlockInv (withStream [0x50000000] bracket) ∧ ∃ t, step (withStream [0x50000000] bracket) = .next t ∧
      t.fault = some ⟨.fgBusy, 0x50000000, 0⟩) ∧
    (BlockInv (withStream [0x60000000] stateI) ∧ ∃ t, step (withStream [0x60000000] stateI) = .next t ∧
      t.fault = some ⟨.txState, 0x60000000, 0⟩) ∧
    (BlockInv (withStream [0xFFFFFFFF] stateI) ∧ ∃ t, step (withStream [0xFFFFFFFF] stateI) = .next t ∧
      t.fault = some ⟨.illegal, 0xFFFFFFFF, 0⟩) :=
  ⟨⟨inv_of_phase _ trivial (by decide), _, rfl, rfl⟩, ⟨inv_of_phase _ trivial (by decide), _, rfl, rfl⟩,
    ⟨inv_of_phase _ trivial (by decide), _, rfl, rfl⟩, ⟨inv_of_phase _ trivial (by decide), _, rfl, rfl⟩,
    inv_of_phase _ trivial (by decide), _, rfl, rfl⟩

/-- The clauses of INIT: before it, a second one, and the state it leads to. -/
theorem witness_InitEnablesTheThreeSources :
    (State.reset.fault = none ∧ State.reset.fg = .idle ∧ State.reset.initialized = false) ∧
    (CanIssue stateI ∧ stateI.initialized = true) ∧
    (BlockInv State.reset ∧ ∃ t, exec .init State.reset = .next t) :=
  ⟨⟨rfl, rfl, rfl⟩, ⟨⟨rfl, .inl rfl⟩, rfl⟩, inv_reset, _, rfl⟩

/-- Reserved bits, for each format Z or F operation: the lowest and the highest reserved bit. -/
theorem witness_ReservedBitsFault :
    CanIssue stateI ∧ FgMoves stateI ∧
    (∀ op ∈ [2#4, 3#4, 4#4, 5#4, 6#4], ∀ low ∈ [1#28, 0x8000000#28],
      opField (op ++ low) = op ∧ (op ++ low).extractLsb' 0 28 ≠ 0#28) := by
  refine ⟨⟨rfl, .inl rfl⟩, .inl rfl, fun op h low h' => ?_⟩
  simp only [List.mem_cons, List.not_mem_nil, or_false] at h h'
  obtain rfl | rfl | rfl | rfl | rfl := h <;> obtain rfl | rfl := h' <;> exact ⟨rfl, by decide⟩

/-- The conditions of the result, F_NOT_INIT and F_FG_BUSY clauses of SETF, CLRF and TXB, and of READ. -/
theorem witness_SetfInstallsTheFilter :
    (stateI.fault = none ∧ stateI.fg = .idle ∧ stateI.initialized = true) ∧
    (CanIssue State.reset ∧ State.reset.initialized = false) ∧
    (bracket.fault = none ∧ bracket.fg = .writing ∧ bracket.initialized = true) :=
  ⟨⟨rfl, rfl, rfl⟩, ⟨⟨rfl, .inl rfl⟩, rfl⟩, rfl, rfl, rfl⟩

theorem witness_ClrfClearsTheFilter :
    (stateI.fault = none ∧ stateI.fg = .idle ∧ stateI.initialized = true) ∧
    (CanIssue State.reset ∧ State.reset.initialized = false) ∧
    (bracket.fault = none ∧ bracket.fg = .writing ∧ bracket.initialized = true) := witness_SetfInstallsTheFilter

theorem witness_TxbOpensTheWriteBracket :
    (stateI.fault = none ∧ stateI.fg = .idle ∧ stateI.initialized = true) ∧
    (CanIssue State.reset ∧ State.reset.initialized = false) ∧
    (bracket.fault = none ∧ bracket.fg = .writing ∧ bracket.initialized = true) := witness_SetfInstallsTheFilter

/-- TXB's last two clauses: the gate, and an operation that completes its issue inside the bracket with a fault. -/
theorem witness_TxbOpensTheWriteBracket_after :
    (stateI.cfg.gateByEnable = true ∧ ∃ t, exec .txb stateI = .next t ∧ stateI.ienRls = true) ∧
    (bracket.initialized = true ∧ bracket.fg = .writing ∧ ∃ t, exec (.read 1) bracket = .next t) :=
  ⟨⟨rfl, _, rfl, rfl⟩, rfl, rfl, _, rfl⟩

theorem witness_TxeClosesTheWriteBracket :
    (bracket.fault = none ∧ bracket.fg = .writing ∧ bracket.initialized = true) ∧
    (CanIssue State.reset ∧ State.reset.initialized = false) ∧
    (stateI.fault = none ∧ stateI.fg = .idle ∧ stateI.initialized = true) :=
  ⟨⟨rfl, rfl, rfl⟩, ⟨⟨rfl, .inl rfl⟩, rfl⟩, rfl, rfl, rfl⟩

/-- One of each foreground operation that takes effect. -/
theorem witness_ForegroundOperationFrame :
    (∃ t, exec .init State.reset = .next t ∧ t.fault = none) ∧ (∃ t, exec (.read 0) abc = .next t ∧ t.fault = none) ∧
    (∃ t, exec (.setf crlf) abc = .next t ∧ t.fault = none) ∧ (∃ t, exec .clrf abc = .next t ∧ t.fault = none) ∧
    (∃ t, exec .txb abc = .next t ∧ t.fault = none) ∧ (∃ t, exec .txe bracket = .next t ∧ t.fault = none) :=
  ⟨⟨_, rfl, rfl⟩, ⟨_, rfl, rfl⟩, ⟨_, rfl, rfl⟩, ⟨_, rfl, rfl⟩, ⟨_, rfl, rfl⟩, _, rfl, rfl⟩

/-! ## READ -/

theorem witness_EmptyReadChangesNothing :
    stateI.fault = none ∧ stateI.fg = .idle ∧ stateI.initialized = true ∧ stateI.length = 0 := by decide

/-- The clauses of READ's issue step; for its faults see `witness_SetfInstallsTheFilter`. -/
theorem witness_ReadIssueStartsTheDrain :
    (stateI.cfg.hardenedDrain = false ∧ stateI.length = 0) ∧
    (abc.fault = none ∧ abc.fg = .idle ∧ abc.initialized = true ∧ abc.cfg.hardenedDrain = false ∧ abc.length ≠ 0 ∧
      abc.cfg.readLenSample = .once ∧ ({ readLenSample := .atCopy } : Config).readLenSample = .atCopy) ∧
    (65535 ≤ 65535 ∧ opField 0x18000000 = 1#4 ∧ (0x18000000 : Word).extractLsb' 16 12 ≠ 0#12 ∧
      (0x10010000 : Word).extractLsb' 16 12 ≠ 0#12) := by decide

theorem witness_HardenedReadIsOneStep :
    let s := { abc with cfg := { capacity := 4, hardenedDrain := true } }
    s.fault = none ∧ s.fg = .idle ∧ s.initialized = true ∧ s.cfg.hardenedDrain = true ∧ s.length < s.cfg.capacity := by
  decide

/-- CNT after a wrap, and with bytes to copy. -/
theorem witness_CountStepReadsLengthAgain :
    FgMoves { stateI with fg := .rdCount 65535 } ∧ FgMoves { abc with fg := .rdCount 2 } ∧
      abc.fault = none ∧ stateI.fault = none := ⟨.inl rfl, .inl rfl, rfl, rfl⟩

/-- The last copy of the longest drain: index N-2. -/
theorem witness_CopyStepReadsNextElement :
    let s := { abc with fg := .rdCopy 3 2 [0x41, 0x42] }
    s.fault = none ∧ FgMoves s ∧ 2 < 3 ∧ 3 < s.cfg.capacity ∧ s.byteAt 2 = 0x43 :=
  ⟨rfl, .inl rfl, by decide, by decide, rfl⟩

theorem witness_ResetStepEmptiesTheBuffer :
    let s := { abc with fg := .rdReset [0x41] }
    s.fault = none ∧ FgMoves s ∧ s.fg = .rdReset [0x41] := ⟨rfl, .inl rfl, rfl⟩

/-- A READ of no byte and a READ of more than all of a buffer one below capacity. -/
theorem witness_UninterruptedDrainReturnsOldestBytes :
    (BlockInv (withStream [0x10000000] abc) ∧ (withStream [0x10000000] abc).stream = encode (.read 0) ++ []) ∧
    (BlockInv (withStream [0x1000FFFF] abc) ∧ (withStream [0x1000FFFF] abc).stream = encode (.read 65535) ++ []) ∧
    abc.fault = none ∧ abc.initialized = true ∧ abc.fg = .idle ∧ abc.turns = [] ∧ abc.length ≠ 0 :=
  ⟨⟨inv_of_phase _ trivial (by decide), rfl⟩, ⟨inv_of_phase _ trivial (by decide), rfl⟩, rfl, rfl, rfl, rfl, by decide⟩

/-- The same under AtCopy and under HARDENED_DRAIN. -/
theorem witness_UninterruptedDrainReturnsOldestBytes_settings :
    (∀ c ∈ [({ capacity := 4, readLenSample := .atCopy } : Config), { capacity := 4, hardenedDrain := true },
      { capacity := 4, readLenSample := .atCopy, hardenedDrain := true }],
      BlockInv (withStream [0x1000FFFF] { abc with cfg := c })) ∧
    (withStream [0x1000FFFF] abc).stream = encode (.read 65535) ++ [] := by
  refine ⟨fun c hc => ?_, rfl⟩
  simp only [List.mem_cons, List.not_mem_nil, or_false] at hc
  obtain rfl | rfl | rfl := hc <;> exact inv_of_phase _ trivial (by decide)

/-- At capacity 4, three bytes: the most that a drain returns. -/
theorem witness_DeliveredBytesComeBackInOrder :
    let bytes : List Byte := [0x41, 0x42, 0x43]
    let s := withCapacity 4 (withStream (encode (.read 3))
      (withTurns (bytes.map fun b => Turn.svc (0x00040000 ||| b.setWidth 32)) stateI))
    BlockInv s ∧ s.fault = none ∧ s.initialized = true ∧ s.fg = .idle ∧ s.filter = none ∧ s.length = 0 ∧
      s.cfg.causeRda = 2 ∧ s.recurring = [] ∧ bytes ≠ [] ∧ bytes.length < s.cfg.capacity ∧ bytes.length ≤ 3 :=
  ⟨inv_of_phase _ trivial (by decide), rfl, rfl, rfl, rfl, rfl, rfl, rfl, by decide, by decide, by decide⟩

theorem inv_abc_copying : BlockInv { abc with fg := .rdCopy 3 2 [0x41, 0x42] } :=
  inv_of_phase _ ⟨rfl, by decide, rfl, by decide, by decide⟩ (by decide)

theorem witness_DrainReturnsFewerThanCapacity :
    (BlockInv { abc with fg := .rdReset [0x41, 0x42, 0x43] } ∧
      ∃ t, step { abc with fg := .rdReset [0x41, 0x42, 0x43] } = .next t ∧
        t.trace = abc.trace ++ [.readResult 3 [0x41, 0x42, 0x43]]) ∧
    (BlockInv { abc with fg := .rdCopy 3 2 [0x41, 0x42] } ∧ FgMoves { abc with fg := .rdCopy 3 2 [0x41, 0x42] } ∧
      ∃ t, step { abc with fg := .rdCopy 3 2 [0x41, 0x42] } = .next t) :=
  ⟨⟨inv_of_phase _ ⟨rfl, by decide⟩ (by decide), _, rfl, rfl⟩, inv_abc_copying, .inl rfl, _, rfl⟩

theorem witness_DrainReadsOnlyStoredBytes :
    (BlockInv { abc with fg := .rdCopy 3 2 [0x41, 0x42] } ∧ FgMoves { abc with fg := .rdCopy 3 2 [0x41, 0x42] } ∧
      abc.fault = none) ∧
    (BlockInv { abc with cfg := { capacity := 4, hardenedDrain := true } } ∧ abc.initialized = true ∧ abc.fg = .idle ∧
      abc.length ≠ 0) :=
  ⟨⟨inv_abc_copying, .inl rfl, rfl⟩, inv_of_phase _ trivial (by decide), rfl, rfl, by decide⟩

/-- Another storage that agrees below `length` and not above it. -/
theorem witness_ForegroundOperationsBlindToStaleElements :
    let storage : Memory := [(0, 0x41), (1, 0x42), (2, 0x43), (3, 0x99)]
    isSvc (.read 3) = false ∧ (∃ t, exec (.read 3) abc = .next t) ∧ storage ≠ abc.storage ∧
    ∀ a, a < abc.length → (Memory.read storage a).getD (Config.storageAtReset a) = abc.byteAt a := by
  refine ⟨rfl, ⟨_, rfl⟩, by decide, fun a h => ?_⟩
  have h3 : a < 3 := h
  obtain rfl | rfl | rfl : a = 0 ∨ a = 1 ∨ a = 2 := by omega
  all_goals rfl

/-! ## Whole-machine rules and hazards -/

/-- A step that initializes, and one that does not. -/
theorem witness_OnlyInitInitializes :
    (∃ t, step (withStream [0x40000000] State.reset) = .next t ∧ t.initialized = true) ∧
    (∃ t, step (withStream [0x30000000] State.reset) = .next t ∧ t.initialized = false) := ⟨⟨_, rfl, rfl⟩, _, rfl, rfl⟩

/-- A step that installs a filter, and one that clears it. -/
theorem witness_OnlySetfAndClrfWriteTheFilter :
    (∃ t, step (withStream (encode (.setf crlf)) stateI) = .next t ∧ t.filter ≠ stateI.filter) ∧
    (∃ t, step (withStream [0x30000000] { stateI with filter := some crlf }) = .next t ∧ t.filter ≠ some crlf) :=
  ⟨⟨_, rfl, by decide⟩, _, rfl, by decide⟩

/-- A step that clears `ien_rda`. -/
theorem witness_OnlyInitAndTheBracketWriteTheEnables :
    ∃ t, step (withStream [0x50000000] stateI) = .next t ∧
      (t.ienRda, t.ienThre, t.ienRls) ≠ (stateI.ienRda, stateI.ienThre, stateI.ienRls) ∧
      stateI.ienThre = true ∧ stateI.ienRls = true := ⟨_, rfl, by decide, rfl, rfl⟩

/-- A step of each agent. -/
theorem witness_OnlyAppendWritesStorage :
    (FgMoves { abc with fg := .rdReset [] } ∧ ∃ t, step { abc with fg := .rdReset [] } = .next t ∧ t.length = 0) ∧
    (¬ FgMoves (withTurns [.svc 0x00040044] abc) ∧
      ∃ t, step (withTurns [.svc 0x00040044] abc) = .next t ∧ t.storage ≠ abc.storage) :=
  ⟨⟨.inl rfl, _, rfl, rfl⟩, (by rintro (h | h) <;> cases h), _, rfl, by decide⟩

theorem witness_StepAppendsAtMostOneRecord :
    (FgMoves { abc with fg := .rdReset [] } ∧ ∃ t, step { abc with fg := .rdReset [] } = .next t) ∧
    (¬ FgMoves (withTurns [.svc 0x00020000] abc) ∧ ∃ t, step (withTurns [.svc 0x00020000] abc) = .next t) :=
  ⟨⟨.inl rfl, _, rfl⟩, (by rintro (h | h) <;> cases h), _, rfl⟩

/-- The held-back classes, and the RLS event that still appends. -/
theorem witness_WriteBracketHoldsBackReceiveData :
    BlockInv (withTurns [.svc 0x00040041] bracket) ∧ BlockInv (withTurns [.svc 0x00060141] bracket) ∧
    bracket.fault = none ∧ bracket.fg = .writing ∧ bracket.cfg.gateByEnable = true ∧ bracket.filter = none ∧
    classOf bracket.cfg ((0x00040041 : Word).extractLsb' 17 3) = .rda ∧
    classOf bracket.cfg ((0x000C0041 : Word).extractLsb' 17 3) = .cti ∧
    (0x00060141 : Word).extractLsb' 24 8 = 0#8 ∧ (0x00060141 : Word).extractLsb' 17 3 = bracket.cfg.causeRls ∧
    ¬ LineErrorFlag bracket.cfg ((0x00060141 : Word).extractLsb' 8 8) ∧
    ((0x00060141 : Word).extractLsb' 8 8).getLsbD bracket.cfg.lsrDr.val = true :=
  ⟨inv_of_phase _ trivial (by decide), inv_of_phase _ trivial (by decide), rfl, rfl, rfl, rfl, by decide, by decide,
    by decide, by decide, by unfold LineErrorFlag; decide, by decide⟩

theorem witness_ByteAppendedBeforeResetIsLost :
    let s := withTurns [.svc (0x00040000 ||| (0x44 : Byte).setWidth 32), .fg] { abc with fg := .rdReset [0x41] }
    BlockInv s ∧ s.fault = none ∧ SvcMayOccur s .rda ∧ s.filter = none ∧ s.cfg.causeRda = 2 ∧ s.fg = .rdReset [0x41] :=
  ⟨inv_of_phase _ ⟨rfl, by decide⟩ (by decide), rfl, mayOccur_abc _, rfl, rfl, rfl⟩

/-- `n` at its bound, `length` itself, with an append that wraps. -/
theorem witness_AppendDuringCopyLandsAboveTheCount :
    let s := withTurns [.svc 0x00040044] { abc with fg := .rdCopy 3 2 [0x41, 0x42] }
    BlockInv s ∧ s.fg = .rdCopy 3 2 [0x41, 0x42] ∧ 3 ≤ s.length ∧ ∃ t, step s = .next t ∧ t.length = 0 :=
  ⟨inv_of_phase _ ⟨rfl, by decide, rfl, by decide, by decide⟩ (by decide), rfl, by decide, _, rfl, rfl⟩

theorem witness_TornDrainReturnsTheNewByte :
    let s := withTurns [.svc (0x00040000 ||| (0x44 : Byte).setWidth 32), .svc (0x00040000 ||| (0x45 : Byte).setWidth 32),
      .fg] { abc with fg := .rdCopy 3 0 [] }
    BlockInv s ∧ s.fault = none ∧ SvcMayOccur s .rda ∧ s.filter = none ∧ s.cfg.causeRda = 2 ∧ s.fg = .rdCopy 3 0 [] ∧
      s.length + 1 = s.cfg.capacity :=
  ⟨inv_of_phase _ ⟨rfl, by decide, rfl, by decide, by decide⟩ (by decide), rfl, mayOccur_abc _, rfl, rfl, rfl, rfl⟩

theorem witness_FinishedRunHasNoForegroundStep :
    (Finished stateI ∧ FgMoves stateI) ∧
    (BlockInv (withTurns [.svc 0x00040041] stateI) ∧ Finished (withTurns [.svc 0x00040041] stateI) ∧
      (0x00040041 : Word).extractLsb' 24 8 = 0#8 ∧ ∀ c, SvcMayOccur (withTurns [.svc 0x00040041] stateI) c) :=
  ⟨⟨⟨rfl, rfl, rfl⟩, .inl rfl⟩, inv_of_phase _ trivial (by decide), ⟨rfl, rfl, rfl⟩, by decide, mayOccur_stateI⟩

/-! ## Executions -/

/-- An execution of one step, INIT, from reset, and its run of `step`. -/
theorem witness_ExecutionsAreStepRuns :
    (∃ run, ExecutionFrom (withStream [0x40000000] State.reset) (some 1) (fun _ => .fg) run ∧
      ∀ j, some 1 = some j → 1 ≤ j) ∧
    ∃ t, runSteps 1 (withTurns [.fg] (withStream [0x40000000] State.reset)) = .next t ∧ t.initialized = true := by
  refine ⟨⟨fun n => if n = 0 then withStream [0x40000000] State.reset else { stateI with index := 1 }, ⟨rfl, ?_⟩, ?_⟩,
    _, rfl, rfl⟩
  · intro n hn
    obtain rfl : n = 0 := by have := hn 1 rfl; omega
    rfl
  · intro j hj
    cases hj
    exact Nat.le_refl 1

/-- Character timeouts for ever, and from reset. -/
theorem witness_EnvironmentMayDeliverWithoutEnd :
    BlockInv stateI ∧ (0x000C0000 : Word).extractLsb' 24 8 = 0#8 ∧
      (∀ c, SvcMayOccur stateI c) ∧ Config.Legal { capacity := 1 } :=
  ⟨inv_stateI, by decide, mayOccur_stateI, by decide⟩

/-- A character timeout and a receive-data event in turn, with a program that never gets to run. -/
theorem witness_RecurringEventsStarveTheForeground :
    let events : List Word := [0x000C0000, 0x00040041]
    let s := withStream [0x10000040] { stateI with recurring := events.map Turn.svc }
    BlockInv s ∧ events ≠ [] ∧ (∀ w ∈ events, w.extractLsb' 24 8 = 0#8) ∧ (∀ c, SvcMayOccur s c) ∧ s.schedule = [] ∧
      s.recurring = events.map Turn.svc ∧ ∃ t, runSteps 3 s = .next t ∧ t.stream = s.stream ∧ t.length = 1 :=
  ⟨inv_of_phase _ trivial (by decide), by decide,
    fun w hw => by
      simp only [List.mem_cons, List.not_mem_nil, or_false] at hw
      obtain rfl | rfl := hw <;> rfl,
    mayOccur_stateI, rfl, rfl, _, rfl, rfl, rfl⟩

end Sys2Proof.Tests
end

section
/-! PROOFS. The scope family: the invariant at reset (O15), what one step emits and leaves (O49), and the runs of `step`
as the executions of R184 (O55). -/

namespace Sys2Proof.Machine

/-! ### Reset -/

/-- Reset establishes the invariant for every legal set of parameters (R23, R24, R28, R39). -/
theorem blockInv_boot {cfg : Config} (hl : cfg.Legal) (stream : List Word) (schedule recurring : List Turn) :
    BlockInv (State.boot cfg stream schedule recurring) where
  cfgLegal := hl
  storageWf := Memory.wf_nil
  storageInRange := fun _ hc => absurd hc List.not_mem_nil
  lengthBound := hl.1
  validStored := fun i hi => absurd hi (Nat.not_lt_zero i)
  phase := trivial
  beforeInit := fun _ => ⟨rfl, rfl, rfl, rfl, rfl, rfl⟩
  afterInit := nofun

/-- Settles O15: reset establishes the invariant, and `State.reset` is the reset under the default parameters. -/
theorem invariantHoldsAtReset : Obligations.InvariantHoldsAtReset :=
  ⟨fun _ stream schedule recurring hl => blockInv_boot hl stream schedule recurring, blockInv_boot (by decide) [] [] []⟩

/-! ### What a step emits and what it leaves -/

/-- `t` has the parameters and the choices to come of `s`. -/
structure SameConfigAndChoices (s t : State) : Prop where
  cfg : t.cfg = s.cfg
  schedule : t.schedule = s.schedule
  recurring : t.recurring = s.recurring

/-- From `s` to `t` nothing has been emitted, or the result of one READ (R13, R155). -/
def EmitsAtMostOneRead (s t : State) : Prop :=
  t.trace = s.trace ∨ ∃ count bytes, t.trace = s.trace ++ [.readResult count bytes]

/-- A READ that passes its checks emits its result now, or nothing (R150, R156). -/
theorem readEffect_emits {max : Nat} {s t : State} (h : readEffect max s = .next t) :
    SameConfigAndChoices s t ∧ EmitsAtMostOneRead s t := by
  rcases readEffect_next h with ⟨_, rfl⟩ | ⟨_, _, _, rfl⟩ | ⟨_, _, _, rfl⟩ | ⟨_, _, _, rfl⟩
  · exact ⟨⟨rfl, rfl, rfl⟩, .inr ⟨_, _, rfl⟩⟩
  · exact ⟨⟨rfl, rfl, rfl⟩, .inr ⟨_, _, rfl⟩⟩
  · exact ⟨⟨rfl, rfl, rfl⟩, .inl rfl⟩
  · exact ⟨⟨rfl, rfl, rfl⟩, .inl rfl⟩

/-- Of the foreground operations only READ emits. -/
theorem fgEffect_emits {i : Instr} {s t : State} (h : fgEffect i s = .next t) :
    SameConfigAndChoices s t ∧ EmitsAtMostOneRead s t := by
  cases i with
  | read max => exact readEffect_emits h
  | setf _ | clrf | init | txb | txe => cases h; exact ⟨⟨rfl, rfl, rfl⟩, .inl rfl⟩
  | _ => cases h

/-- An issued operation emits what its effect emits; a fault emits nothing (R140, R185). -/
theorem exec_emits_of_fg {i : Instr} (hi : isSvc i = false) {s t : State} (h : exec i s = .next t) :
    SameConfigAndChoices s t ∧ EmitsAtMostOneRead s t := by
  rw [exec_fg hi] at h
  obtain ⟨-, ⟨code, -, rfl⟩ | ⟨-, he⟩⟩ := issue_next h
  · exact ⟨⟨rfl, rfl, rfl⟩, .inl rfl⟩
  · obtain ⟨⟨hcfg, hsched, hrec⟩, hemit⟩ := fgEffect_emits he
    exact ⟨⟨hcfg, hsched, hrec⟩, hemit⟩

/-- Of the micro-steps only RST emits (R155); an issue emits what its operation emits. -/
theorem fgTurn_emits {s t : State} (h : fgTurn s = .next t) : SameConfigAndChoices s t ∧ EmitsAtMostOneRead s t := by
  obtain ⟨-, ⟨_, _, rfl⟩ | ⟨_, _, _, _, _, _, rfl⟩ | ⟨_, _, rfl⟩ | ⟨_, _, _, _, hissue⟩⟩ := fgTurn_next h
  · exact ⟨⟨rfl, rfl, rfl⟩, .inl rfl⟩
  · exact ⟨⟨rfl, rfl, rfl⟩, .inl rfl⟩
  · exact ⟨⟨rfl, rfl, rfl⟩, .inr ⟨_, _, rfl⟩⟩
  · rcases hissue with ⟨_, rfl⟩ | ⟨i, _, _, hi, hexec⟩
    · exact ⟨⟨rfl, rfl, rfl⟩, .inl rfl⟩
    · exact exec_emits_of_fg hi hexec

/-- An SVC that has a step emits exactly one outcome record (R101). -/
theorem svcTurn_emits {w : Word} {s t : State} (h : svcTurn w s = .next t) :
    SameConfigAndChoices s t ∧ ∃ o, t.trace = s.trace ++ [.svc o] := by
  obtain ⟨-, -, hservice⟩ := svcTurn_next h
  rcases serviceClass_next hservice with ⟨o, -, -, rfl⟩ | ⟨o, -, -, -, -, -, rfl⟩
  · exact ⟨⟨rfl, rfl, rfl⟩, o, rfl⟩
  · exact ⟨⟨rfl, rfl, rfl⟩, o, rfl⟩

/-- Settles O49, by the agent that the next choice names. -/
theorem stepAppendsAtMostOneRecord : Obligations.StepAppendsAtMostOneRecord := by
  intro s t h
  rcases step_next h with ⟨hfg, hturn⟩ | ⟨hsvc, w, turns, hs, hturn⟩
  · obtain ⟨⟨hcfg, hsched, hrec⟩, hemit⟩ := fgTurn_emits hturn
    exact ⟨hcfg, hsched, hrec, fun _ => hemit, fun hn => absurd hfg hn⟩
  · obtain ⟨⟨hcfg, hsched, hrec⟩, hemit⟩ := svcTurn_emits hturn
    rw [hs]
    exact ⟨hcfg, hsched, hrec, fun hm => absurd hm hsvc, fun _ => hemit⟩

/-! ### Executions and runs of `step` (R184) -/

/-- `step` under a schedule is the step of the agent that the schedule's first choice names. -/
theorem step_setSchedule_cons (s : State) (c : Turn) (l : List Turn) :
    step (s.setSchedule (c :: l)) = agentStep c (s.setSchedule l) :=
  step_of_turns (s := s.setSchedule (c :: l)) rfl

/-- An agent's step, found as the next choice of a schedule, is a step of the machine and uses that choice up. -/
theorem step_of_agentStep {c : Turn} {s t : State} (l : List Turn) (h : agentStep c s = .next t) :
    step (s.setSchedule (c :: l)) = .next (t.setSchedule l) :=
  (step_setSchedule_cons s c l).trans (agentStep_setSchedule l h)

/-- Conversely, a step under a schedule is the step of the agent that its first choice names, and the rest of the schedule
is left. -/
theorem agentStep_of_step {c : Turn} {s t : State} {l : List Turn} (h : step (s.setSchedule (c :: l)) = .next t) :
    agentStep c s = .next (t.setSchedule s.schedule) ∧ t.schedule = l := by
  rw [step_setSchedule_cons] at h
  exact ⟨agentStep_setSchedule (s := s.setSchedule l) s.schedule h, agentStep_schedule h⟩

/-- An execution's first `k` steps are a run of `step` that uses up the first `k` choices of its schedule and leaves the
others. -/
theorem runSteps_of_execution {s : State} {len : Option Nat} {choice : Nat → Turn} {run : Nat → State}
    (h : ExecutionFrom s len choice run) (k : Nat) (hk : ∀ j, len = some j → k ≤ j) (l : List Turn) :
    runSteps k (s.setSchedule ((List.range k).map choice ++ l)) = .next ((run k).setSchedule l) := by
  obtain ⟨hstart, hsteps⟩ := h
  induction k generalizing l with
  | zero => rw [hstart]; rfl
  | succ k ih =>
    have within : WithinLength len k := hk
    have first := ih (fun j hj => Nat.le_of_succ_le (hk j hj)) (choice k :: l)
    have last := step_of_agentStep l (hsteps k within)
    rw [List.range_succ, List.map_append, List.append_assoc]
    exact (runSteps_add 1 first).trans (runSteps_succ 0 last)

/-- The states of a run that starts at `s` and goes on as `run`. -/
def consRun (s : State) (run : Nat → State) : Nat → State
  | 0 => s
  | n + 1 => run n

/-- A step of the agent that `c` names, before an execution under `turns`, is an execution under `c :: turns`. -/
theorem executionFrom_cons {c : Turn} {s t : State} {turns : List Turn} {run : Nat → State}
    (hstep : agentStep c s = .next t) (h : ExecutionFrom t (some turns.length) (fun n => turns.getD n .fg) run) :
    ExecutionFrom s (some (c :: turns).length) (fun n => (c :: turns).getD n .fg) (consRun s run) := by
  obtain ⟨hstart, hsteps⟩ := h
  refine ⟨rfl, fun n hn => ?_⟩
  cases n with
  | zero => exact hstep.trans (congrArg _ hstart.symm)
  | succ n =>
    refine hsteps n fun k hk => ?_
    cases hk
    exact Nat.lt_of_succ_lt_succ (hn _ rfl)

/-- A run of `step` under a list of choices is an execution under them. -/
theorem execution_of_runSteps {turns : List Turn} : ∀ {s t : State},
    runSteps turns.length (s.setSchedule turns) = .next t →
      ∃ run, ExecutionFrom s (some turns.length) (fun n => turns.getD n .fg) run ∧
        t = (run turns.length).setSchedule [] := by
  induction turns with
  | nil =>
    intro s t h
    cases h
    exact ⟨fun _ => s, ⟨rfl, fun n hn => absurd (hn 0 rfl) (Nat.not_lt_zero n)⟩, rfl⟩
  | cons c turns ih =>
    intro s t h
    cases hstep : step (s.setSchedule (c :: turns)) with
    | fault r => simp [runSteps, hstep] at h
    | refused r => simp [runSteps, hstep] at h
    | next s' =>
      rw [List.length_cons, runSteps_succ _ hstep] at h
      obtain ⟨hagent, rfl⟩ := agentStep_of_step hstep
      obtain ⟨run, hrun, rfl⟩ := ih (s := s'.setSchedule s.schedule) h
      exact ⟨consRun s run, executionFrom_cons hagent hrun, rfl⟩

/-- Settles O55: an agent's step does not depend on the schedule in which `step` finds the choice. -/
theorem executionsAreStepRuns : Obligations.ExecutionsAreStepRuns := by
  refine ⟨fun s len choice run k h hk => ?_, fun s t turns h => execution_of_runSteps h⟩
  have := runSteps_of_execution h k hk []
  rwa [List.append_nil] at this

end Sys2Proof.Machine
end

section
/-! PROOFS. The state family: the invariant kept by every step (O16), the reset values (O14), the frame of the foreground
operations (O33), who writes each field of the block (O45 to O48), and what a drain reads of storage (O43, O44). -/

namespace Sys2Proof.Machine

/-! ### What each write of the block keeps of the invariant -/

/-- The phase's invariant speaks of the phase, the parameters and which elements have been stored to. -/
theorem PhaseInv.of_stored {s t : State} (h : PhaseInv s) (hfg : t.fg = s.fg) (hcfg : t.cfg = s.cfg)
    (hstored : ∀ i, (Memory.read s.storage i).isSome = true → (Memory.read t.storage i).isSome = true) : PhaseInv t := by
  unfold PhaseInv at h ⊢
  rw [hfg, hcfg]
  cases hp : s.fg with
  | rdCopy n k out =>
    rw [hp] at h
    obtain ⟨hdrain, hk, hout, hn, hread⟩ := h
    exact ⟨hdrain, hk, hout, hn, fun i hi => hstored i (hread i hi)⟩
  | _ => rw [hp] at h; exact h

theorem BlockInv.phase_rdCount {s : State} (h : BlockInv s) {max : Nat} (hfg : s.fg = .rdCount max) :
    s.cfg.hardenedDrain = false ∧ s.cfg.readLenSample = .atCopy := by
  simpa only [PhaseInv, hfg] using h.phase

theorem BlockInv.phase_rdCopy {s : State} (h : BlockInv s) {n k : Nat} {out : List Byte}
    (hfg : s.fg = .rdCopy n k out) :
    s.cfg.hardenedDrain = false ∧ k < n ∧ out.length = k ∧ n < s.cfg.capacity ∧
      ∀ i, i < n → (Memory.read s.storage i).isSome = true := by
  simpa only [PhaseInv, hfg] using h.phase

/-- The invariant speaks of the block's fields only: the agents' own fields, the fault and the trace may be any. -/
theorem BlockInv.with_agents {s : State} (h : BlockInv s) (fault : Option FaultRecord) (stream : List Word) (index : Nat)
    (schedule : List Turn) (trace : List Observation) :
    BlockInv { s with fault := fault, stream := stream, index := index, schedule := schedule, trace := trace } :=
  ⟨h.cfgLegal, h.storageWf, h.storageInRange, h.lengthBound, h.validStored, h.phase, h.beforeInit, h.afterInit⟩

theorem BlockInv.emit {s : State} (h : BlockInv s) (o : Observation) : BlockInv (s.emit o) :=
  h.with_agents s.fault s.stream s.index s.schedule (s.trace ++ [o])

theorem BlockInv.retire {s : State} (h : BlockInv s) (n : Nat) : BlockInv (s.retire n) :=
  h.with_agents s.fault (s.stream.drop n) (s.index + 1) s.schedule s.trace

theorem BlockInv.setSchedule {s : State} (h : BlockInv s) (l : List Turn) : BlockInv (s.setSchedule l) :=
  h.with_agents s.fault s.stream s.index l s.trace

theorem BlockInv.faulted {s : State} (h : BlockInv s) (code : FaultCode) (word : Word) :
    BlockInv (faultedState s code word) :=
  h.with_agents (some ⟨code, word, s.index⟩) s.stream s.index s.schedule s.trace

/-- An empty buffer has no valid element, and legal parameters leave room for it (R23). -/
theorem BlockInv.setLength_zero {s : State} (h : BlockInv s) : BlockInv (s.setLength 0) where
  cfgLegal := h.cfgLegal
  storageWf := h.storageWf
  storageInRange := h.storageInRange
  lengthBound := h.cfgLegal.1
  validStored := fun i hi => absurd hi (Nat.not_lt_zero i)
  phase := h.phase
  beforeInit := fun hi => ⟨rfl, (h.beforeInit hi).2⟩
  afterInit := h.afterInit

theorem BlockInv.setFilter {s : State} (h : BlockInv s) (hi : s.initialized = true) (f : Option ByteSet) :
    BlockInv (s.setFilter f) where
  cfgLegal := h.cfgLegal
  storageWf := h.storageWf
  storageInRange := h.storageInRange
  lengthBound := h.lengthBound
  validStored := h.validStored
  phase := h.phase
  beforeInit := fun hn => absurd hi (ne_true_of_eq_false hn)
  afterInit := h.afterInit

/-- INIT sets the enables that fit the phase it leaves, Idle (R141). -/
theorem BlockInv.setInitialized {s : State} (h : BlockInv s) (hn : s.initialized = false) : BlockInv s.setInitialized where
  cfgLegal := h.cfgLegal
  storageWf := h.storageWf
  storageInRange := h.storageInRange
  lengthBound := h.lengthBound
  validStored := h.validStored
  phase := h.phase
  beforeInit := nofun
  afterInit := fun _ => by
    obtain ⟨-, -, hidle, -⟩ := h.beforeInit hn
    simp [hidle]

/-- After INIT the phase may change if `ien_rda` follows the write bracket (R27, R160, R161). -/
theorem BlockInv.setIenRda_setFg {s : State} (h : BlockInv s) (hi : s.initialized = true) {b : Bool} {p : FgPhase}
    (hbracket : b = true ↔ p ≠ .writing) (hphase : PhaseInv (s.setFg p)) : BlockInv ((s.setIenRda b).setFg p) where
  cfgLegal := h.cfgLegal
  storageWf := h.storageWf
  storageInRange := h.storageInRange
  lengthBound := h.lengthBound
  validStored := h.validStored
  phase := hphase
  beforeInit := fun hn => absurd hi (ne_true_of_eq_false hn)
  afterInit := fun _ => by
    obtain ⟨hthre, hrls, -⟩ := h.afterInit hi
    exact ⟨hthre, hrls, hbracket⟩

/-- Outside the write bracket the phase may change to any other outside it (R28). -/
theorem BlockInv.setFg {s : State} (h : BlockInv s) (hi : s.initialized = true) {p : FgPhase} (hout : s.fg ≠ .writing)
    (hp : p ≠ .writing) (hphase : PhaseInv (s.setFg p)) : BlockInv (s.setFg p) := by
  obtain ⟨-, -, hrda⟩ := h.afterInit hi
  exact h.setIenRda_setFg (b := s.ienRda) hi (by simp [hrda, hout, hp]) hphase

/-- An append stores to the element that becomes valid, within the capacity, and unlists none (R24, R110). -/
theorem BlockInv.appended {s : State} (h : BlockInv s) (hi : s.initialized = true) (b : Byte) (o : SvcOutcome) :
    BlockInv (appendedState s b o) where
  cfgLegal := h.cfgLegal
  storageWf := Memory.wf_write h.storageWf s.length b
  storageInRange := fun c hc => by
    rcases Memory.mem_write hc with rfl | hc
    · exact h.lengthBound
    · exact h.storageInRange c hc
  lengthBound := lengthAfterAppend_lt h.lengthBound
  validStored := fun i hlt => by
    have hle : i ≤ s.length := by
      simp only [appendedState] at hlt
      split at hlt <;> omega
    rcases Nat.lt_or_eq_of_le hle with hlt | rfl
    · exact Memory.isSome_read_write (h.validStored i hlt) s.length b
    · simp [appendedState, Memory.read_write_same]
  phase := h.phase.of_stored rfl rfl fun _ hs => Memory.isSome_read_write hs s.length b
  beforeInit := fun hn => absurd hi (ne_true_of_eq_false hn)
  afterInit := h.afterInit

/-! ### Every step keeps the invariant -/

/-- Before INIT the foreground is Idle, so any other phase says that INIT has run (R141). -/
theorem BlockInv.initialized_of_fg {s : State} (h : BlockInv s) (hfg : s.fg ≠ .idle) : s.initialized = true := by
  by_contra hn
  obtain ⟨-, -, hidle, -⟩ := h.beforeInit (Bool.eq_false_of_not_eq_true hn)
  exact hfg hidle

theorem copyPhase_ne_writing (n : Nat) : copyPhase n ≠ .writing := by
  unfold copyPhase
  split <;> simp

/-- A copy of valid bytes starts within R28's bounds, and they have been stored to (R24, R213). -/
theorem BlockInv.phaseInv_copyPhase {s : State} (h : BlockInv s) (hdrain : s.cfg.hardenedDrain = false) {n : Nat}
    (hn : n ≤ s.length) : PhaseInv (s.setFg (copyPhase n)) := by
  have hbound := h.lengthBound
  unfold copyPhase
  split
  · exact ⟨hdrain, h.cfgLegal.1⟩
  · exact ⟨hdrain, by omega, rfl, by simp only [State.setFg_cfg]; omega, fun i hi => h.validStored i (by omega)⟩

/-- A READ that passes its checks, outside the write bracket and after INIT, keeps the invariant (R150, R156). -/
theorem readEffect_keeps_blockInv {max : Nat} {s t : State} (h : BlockInv s) (hi : s.initialized = true)
    (hout : s.fg ≠ .writing) (he : readEffect max s = .next t) : BlockInv t := by
  rcases readEffect_next he with ⟨_, rfl⟩ | ⟨_, _, _, rfl⟩ | ⟨_, hdrain, _, rfl⟩ | ⟨_, hdrain, hsample, rfl⟩
  · exact h.emit _
  · exact h.setLength_zero.emit _
  · exact h.setFg hi hout (copyPhase_ne_writing _) (h.phaseInv_copyPhase hdrain (Nat.min_le_right _ _))
  · exact h.setFg hi hout nofun ⟨hdrain, hsample⟩

/-- The effect of a foreground operation whose checks have passed keeps the invariant (R140 to R161). -/
theorem fgEffect_keeps_blockInv {i : Instr} {s t : State} (h : BlockInv s) (hcheck : fgCheck i s = none)
    (he : fgEffect i s = .next t) : BlockInv t := by
  obtain ⟨hfresh, hinit, hbusy, -⟩ := fgCheck_eq_none hcheck
  cases i with
  | read max => exact readEffect_keeps_blockInv h (by simpa using hinit) (by simpa using hbusy) he
  | setf _ | clrf => cases he; exact h.setFilter (by simpa using hinit) _
  | init => cases he; exact h.setInitialized (by simpa using hfresh)
  | txb | txe => cases he; exact h.setIenRda_setFg (by simpa using hinit) (by simp) trivial
  | _ => cases he

/-- Everything the meaning of a foreground operation can do: raise its check's fault, or have its effect (R140). -/
theorem exec_next_of_fg {i : Instr} (hi : isSvc i = false) {s t : State} (h : exec i s = .next t) :
    CanIssue s ∧
      ((∃ code, fgCheck i s = some code ∧ t = faultedState s code (firstWord i)) ∨
        (fgCheck i s = none ∧ fgEffect i (s.retire (encode i).length) = .next t)) :=
  issue_next (exec_fg hi s ▸ h)

theorem exec_keeps_blockInv_of_fg {i : Instr} (hi : isSvc i = false) {s t : State} (h : BlockInv s)
    (he : exec i s = .next t) : BlockInv t := by
  obtain ⟨-, ⟨code, -, rfl⟩ | ⟨hcheck, heffect⟩⟩ := exec_next_of_fg hi he
  · exact h.faulted code _
  · exact fgEffect_keeps_blockInv (h.retire _) hcheck heffect

/-- A copy step keeps R28's bounds: one more byte copied, or the copy done (R153). -/
theorem BlockInv.phaseInv_copied {s : State} (h : BlockInv s) {n k : Nat} {out : List Byte}
    (hfg : s.fg = .rdCopy n k out) (b : Byte) :
    PhaseInv (s.setFg (if k + 1 = n then .rdReset (out ++ [b]) else .rdCopy n (k + 1) (out ++ [b]))) := by
  obtain ⟨hdrain, hk, hout, hn, hstored⟩ := h.phase_rdCopy hfg
  have hlength : (out ++ [b]).length = k + 1 := by simp [hout]
  split
  · exact ⟨hdrain, by simp only [State.setFg_cfg]; omega⟩
  · exact ⟨hdrain, by omega, hlength, hn, hstored⟩

/-- Every foreground step keeps the invariant: by the micro-step of the phase, or the operation issued (R181). -/
theorem fgTurn_keeps_blockInv {s t : State} (h : BlockInv s) (ht : fgTurn s = .next t) : BlockInv t := by
  obtain ⟨-, ⟨max, hfg, rfl⟩ | ⟨n, k, out, hfg, -, -, rfl⟩ | ⟨out, hfg, rfl⟩ | ⟨-, w, -, -, hissue⟩⟩ := fgTurn_next ht
  · obtain ⟨hdrain, -⟩ := h.phase_rdCount hfg
    exact h.setFg (h.initialized_of_fg (by simp [hfg])) (by simp [hfg]) (copyPhase_ne_writing _)
      (h.phaseInv_copyPhase hdrain (Nat.min_le_right _ _))
  · exact h.setFg (h.initialized_of_fg (by simp [hfg])) (by simp [hfg]) (by split <;> simp) (h.phaseInv_copied hfg _)
  · exact (h.setLength_zero.setFg (p := .idle) (h.initialized_of_fg (by simp [hfg])) (by simp [hfg]) nofun trivial).emit _
  · rcases hissue with ⟨-, rfl⟩ | ⟨i, _, -, hi, hexec⟩
    · exact h.faulted .illegal w
    · exact exec_keeps_blockInv_of_fg hi h hexec

/-- Every SVC keeps the invariant: it only emits, or appends its byte (R182). -/
theorem svcTurn_keeps_blockInv {w : Word} {s t : State} (h : BlockInv s) (ht : svcTurn w s = .next t) : BlockInv t := by
  obtain ⟨-, ⟨-, hi, -⟩, hservice⟩ := svcTurn_next ht
  rcases serviceClass_next hservice with ⟨o, -, -, rfl⟩ | ⟨o, -, -, -, -, -, rfl⟩
  · exact h.emit _
  · exact h.appended hi _ o

/-- Settles O16, by the agent that moves. -/
theorem invariantKeptByEveryStep : Obligations.InvariantKeptByEveryStep := by
  intro s t h hstep
  rcases step_next hstep with ⟨-, hturn⟩ | ⟨-, w, turns, -, hturn⟩
  · exact fgTurn_keeps_blockInv (h.setSchedule _) hturn
  · exact svcTurn_keeps_blockInv (h.setSchedule turns) hturn

/-! ### The frame of the foreground operations -/

/-- What the foreground operation `i` may change from `s` to `t`, field by field (R22, R25 to R29). -/
structure ForegroundFrame (i : Instr) (s t : State) : Prop where
  cfg : t.cfg = s.cfg
  schedule : t.schedule = s.schedule
  recurring : t.recurring = s.recurring
  storage : t.storage = s.storage
  filter : i ≠ .clrf → (∀ set, i ≠ .setf set) → t.filter = s.filter
  initialized : i ≠ .init → t.initialized = s.initialized
  ienThre : i ≠ .init → t.ienThre = s.ienThre
  ienRls : i ≠ .init → t.ienRls = s.ienRls
  ienRda : i ≠ .init → i ≠ .txb → i ≠ .txe → t.ienRda = s.ienRda
  fg : i ≠ .txb → i ≠ .txe → (∀ max, i ≠ .read max) → t.fg = s.fg
  length : (∀ max, i ≠ .read max) → t.length = s.length
  trace : (∀ max, i ≠ .read max) → t.trace = s.trace

/-- READ writes no more than the phase, `length` and the trace (R150, R156). -/
theorem readEffect_frame {max : Nat} {s t : State} (h : readEffect max s = .next t) :
    ForegroundFrame (.read max) s t := by
  rcases readEffect_next h with ⟨_, rfl⟩ | ⟨_, _, _, rfl⟩ | ⟨_, _, _, rfl⟩ | ⟨_, _, _, rfl⟩
  · constructor <;> simp
  · constructor <;> simp
  · constructor <;> simp
  · constructor <;> simp

/-- The effect of each operation writes the operation's own fields (R141 to R161). -/
theorem fgEffect_frame {i : Instr} {s t : State} (h : fgEffect i s = .next t) : ForegroundFrame i s t := by
  cases i with
  | read max => exact readEffect_frame h
  | setf _ | clrf | init | txb | txe => cases h; constructor <;> simp
  | _ => cases h

/-- A fault changes no field of the frame, nor does the removal of the operation from the stream (R140, R185). -/
theorem exec_frame_of_fg {i : Instr} (hi : isSvc i = false) {s t : State} (h : exec i s = .next t) :
    ForegroundFrame i s t := by
  obtain ⟨-, ⟨code, -, rfl⟩ | ⟨-, he⟩⟩ := exec_next_of_fg hi h
  · constructor <;> simp [faultedState]
  · obtain ⟨hcfg, hschedule, hrecurring, hstorage, hfilter, hinit, hthre, hrls, hrda, hfg, hlength, htrace⟩ :=
      fgEffect_frame he
    exact ⟨hcfg, hschedule, hrecurring, hstorage, hfilter, hinit, hthre, hrls, hrda, hfg, hlength, htrace⟩

/-- Settles O33: a byte of storage is as unchanged as the list that holds it. -/
theorem foregroundOperationFrame : Obligations.ForegroundOperationFrame := by
  intro i s t hi h
  have hf := exec_frame_of_fg hi h
  have hbytes (a : Nat) : t.byteAt a = s.byteAt a := by simp [State.byteAt, hf.storage]
  exact ⟨hf.cfg, hf.schedule, hf.recurring, hf.storage, hbytes, hf.filter,
    fun hinit => ⟨hf.initialized hinit, hf.ienThre hinit, hf.ienRls hinit⟩, hf.ienRda, hf.fg,
    fun hread => ⟨hf.length hread, hf.trace hread⟩⟩

/-! ### Storage and the drain -/

/-- An element that has been stored to holds the byte stored (R39, R55). -/
theorem State.read_eq_some_byteAt {s : State} {i : Nat} (h : (Memory.read s.storage i).isSome = true) :
    Memory.read s.storage i = some (s.byteAt i) := by
  obtain ⟨b, hb⟩ := Option.isSome_iff_exists.1 h
  rw [State.byteAt_of_read hb, hb]

theorem readEffect_of_empty (max : Nat) {s : State} (hl : s.length = 0) :
    readEffect max s = .next (s.emit (readRecord [])) := by
  simp [readEffect, hl]

theorem readEffect_of_hardened (max : Nat) {s : State} (hl : s.length ≠ 0) (hdrain : s.cfg.hardenedDrain = true) :
    readEffect max s = drainAtomic max s := by
  simp [readEffect, hl, hdrain]

theorem readEffect_of_once (max : Nat) {s : State} (hl : s.length ≠ 0) (hdrain : s.cfg.hardenedDrain = false)
    (hsample : s.cfg.readLenSample = .once) :
    readEffect max s = .next (s.setFg (copyPhase (min max s.length))) := by
  simp [readEffect, hl, hdrain, hsample]

theorem readEffect_of_atCopy (max : Nat) {s : State} (hl : s.length ≠ 0) (hdrain : s.cfg.hardenedDrain = false)
    (hsample : s.cfg.readLenSample = .atCopy) : readEffect max s = .next (s.setFg (.rdCount max)) := by
  simp [readEffect, hl, hdrain, hsample]

/-- A READ issued from Idle after INIT passes its checks (R140, R150). -/
theorem exec_read_of_idle {s : State} (max : Nat) (hf : s.fault = none) (hidle : s.fg = .idle)
    (hi : s.initialized = true) : exec (.read max) s = readEffect max (s.retire (encode (.read max)).length) := by
  have hcheck : fgCheck (.read max) s = none := by simp [fgCheck, hidle, hi]
  exact issue_ok (readEffect max) ⟨hf, .inl hidle⟩ hcheck

/-- Settles O43: the invariant says that the elements a copy and an atomic drain read have been stored to. -/
theorem drainReadsOnlyStoredBytes : Obligations.DrainReadsOnlyStoredBytes := by
  refine ⟨fun s n k out h hf hm hfg => ?_, fun s max h hf hi hidle hdrain hl => ?_⟩
  · obtain ⟨-, hk, -, hn, hstored⟩ := h.phase_rdCopy hfg
    refine ⟨s.byteAt k, _, State.read_eq_some_byteAt (hstored k hk),
      (step_of_fgMoves hm).trans ((fgTurn_rdCopy (s := s.setSchedule s.turns.tail) hf hfg).trans
        (microCpy_of_lt (s := s.setSchedule s.turns.tail) out hk (hk.trans hn))), ?_⟩
    simp only [State.setFg_fg]
    split
    · exact .inl rfl
    · exact .inr rfl
  · have hread : exec (.read max) s = drainAtomic max (s.retire (encode (.read max)).length) :=
      (exec_read_of_idle max hf hidle hi).trans (readEffect_of_hardened max (s := s.retire _) hl hdrain)
    refine ⟨_, _, hread.trans (drainAtomic_of_lt (s := s.retire _) h.lengthBound), rfl, ?_⟩
    rw [List.map_map]
    refine List.map_congr_left fun a ha => ?_
    have hlt : a < s.length := (List.mem_range.1 ha).trans_le (Nat.min_le_right _ _)
    exact (State.read_eq_some_byteAt (h.validStored a hlt)).symm

/-- The atomic drain takes no byte of an element from `length` on (R24, R156). -/
theorem drainAtomic_with_storage {max : Nat} {s t : State} {storage : Memory} (h : drainAtomic max s = .next t)
    (hvalid : ∀ a, a < s.length → ({ s with storage := storage } : State).byteAt a = s.byteAt a) :
    drainAtomic max { s with storage := storage } = .next { t with storage := storage } := by
  have hbytes : (List.range (min max s.length)).map ({ s with storage := storage } : State).byteAt =
      (List.range (min max s.length)).map s.byteAt :=
    List.map_congr_left fun a ha => hvalid a ((List.mem_range.1 ha).trans_le (Nat.min_le_right _ _))
  obtain ⟨hbound, rfl⟩ := drainAtomic_next h
  simp only [drainAtomic, memReadFirst, hbound, hbytes, if_true]
  rfl

/-- Nor does any other setting of READ's issue step. -/
theorem readEffect_with_storage {max : Nat} {s t : State} {storage : Memory} (h : readEffect max s = .next t)
    (hvalid : ∀ a, a < s.length → ({ s with storage := storage } : State).byteAt a = s.byteAt a) :
    readEffect max { s with storage := storage } = .next { t with storage := storage } := by
  rcases readEffect_next h with ⟨hl, rfl⟩ | ⟨hl, hdrain, -⟩ | ⟨hl, hdrain, hsample, rfl⟩ | ⟨hl, hdrain, hsample, rfl⟩
  · exact readEffect_of_empty max (s := { s with storage := storage }) hl
  · rw [readEffect_of_hardened max hl hdrain] at h
    rw [readEffect_of_hardened max (s := { s with storage := storage }) hl hdrain]
    exact drainAtomic_with_storage h hvalid
  · exact readEffect_of_once max (s := { s with storage := storage }) hl hdrain hsample
  · exact readEffect_of_atCopy max (s := { s with storage := storage }) hl hdrain hsample

theorem fgEffect_with_storage {i : Instr} {s t : State} {storage : Memory} (h : fgEffect i s = .next t)
    (hvalid : ∀ a, a < s.length → ({ s with storage := storage } : State).byteAt a = s.byteAt a) :
    fgEffect i { s with storage := storage } = .next { t with storage := storage } := by
  cases i with
  | read max => exact readEffect_with_storage h hvalid
  | setf _ | clrf | init | txb | txe => cases h; rfl
  | _ => cases h

/-- Settles O44: the issue checks do not read storage, and the effect reads it below `length` only. -/
theorem foregroundOperationsBlindToStaleElements : Obligations.ForegroundOperationsBlindToStaleElements := by
  intro i s t storage hi h hvalid
  rw [exec_fg hi]
  obtain ⟨hc, ⟨code, hcheck, rfl⟩ | ⟨hcheck, he⟩⟩ := exec_next_of_fg hi h
  · exact issue_fault (s := { s with storage := storage }) _ hc hcheck
  · rw [issue_ok (s := { s with storage := storage }) _ hc hcheck]
    exact fgEffect_with_storage he hvalid

/-! ### Which step writes which field -/

/-- `t` has the filter, `initialized` and the enables of `s`: the fields that only an issued operation writes. -/
structure SameControl (s t : State) : Prop where
  filter : t.filter = s.filter
  initialized : t.initialized = s.initialized
  ienRda : t.ienRda = s.ienRda
  ienThre : t.ienThre = s.ienThre
  ienRls : t.ienRls = s.ienRls

/-- The foreground agent's step, if it makes one, issues operation `i` (R140, R181). -/
def Issues (s : State) (i : Instr) : Prop :=
  CanIssue s ∧ isSvc i = false ∧ ∃ ws, decode s.stream = .ok (i, ws)

/-- A foreground step issues an operation, or is a micro-step or a fault and leaves storage and the control fields; RST
empties the buffer. -/
theorem fgTurn_issues_or_keeps {s t : State} (h : fgTurn s = .next t) :
    ((∀ i, ¬ Issues s i) ∧ SameControl s t ∧ t.storage = s.storage ∧ (t.length = s.length ∨ t.length = 0)) ∨
      ∃ i, Issues s i ∧ exec i s = .next t := by
  have inRead (hfg : s.fg.inRead = true) (i : Instr) : ¬ Issues s i := fun ⟨hc, _⟩ => by
    obtain ⟨-, hout⟩ := (canIssue_iff s).1 hc
    simp [hfg] at hout
  obtain ⟨-, ⟨_, hfg, rfl⟩ | ⟨_, _, _, hfg, -, -, rfl⟩ | ⟨_, hfg, rfl⟩ | ⟨hc, w, _, _, hissue⟩⟩ := fgTurn_next h
  · exact .inl ⟨inRead (by rw [hfg]; rfl), ⟨rfl, rfl, rfl, rfl, rfl⟩, rfl, .inl rfl⟩
  · exact .inl ⟨inRead (by rw [hfg]; rfl), ⟨rfl, rfl, rfl, rfl, rfl⟩, rfl, .inl rfl⟩
  · exact .inl ⟨inRead (by rw [hfg]; rfl), ⟨rfl, rfl, rfl, rfl, rfl⟩, rfl, .inr rfl⟩
  · rcases hissue with ⟨hillegal, rfl⟩ | ⟨i, ws, hd, hi, hexec⟩
    · refine .inl ⟨fun i ⟨_, hi, ws, hd⟩ => ?_, ⟨rfl, rfl, rfl, rfl, rfl⟩, rfl, .inl rfl⟩
      rcases hillegal with ⟨e, he⟩ | ⟨j, ws', hj, hsvc⟩
      · cases he.symm.trans hd
      · cases hj.symm.trans hd
        exact absurd hsvc (ne_true_of_eq_false hi)
    · exact .inr ⟨i, ⟨hc, hi, ws, hd⟩, hexec⟩

/-- A step of either agent that issues no foreground operation leaves the control fields as they are. -/
theorem step_issues_or_keeps_control {s t : State} (h : step s = .next t) :
    ((FgMoves s → ∀ i, ¬ Issues s i) ∧ SameControl s t) ∨
      (FgMoves s ∧ ∃ i, Issues s i ∧ exec i (s.setSchedule s.turns.tail) = .next t) := by
  rcases step_next h with ⟨hm, hturn⟩ | ⟨hm, w, turns, -, hturn⟩
  · rcases fgTurn_issues_or_keeps hturn with ⟨hno, ⟨hfilter, hinit, hrda, hthre, hrls⟩, -, -⟩ | ⟨i, hissues, hexec⟩
    · exact .inl ⟨fun _ => hno, hfilter, hinit, hrda, hthre, hrls⟩
    · exact .inr ⟨hm, i, hissues, hexec⟩
  · obtain ⟨-, -, hservice⟩ := svcTurn_next hturn
    refine .inl ⟨fun hfg => absurd hfg hm, ?_⟩
    rcases serviceClass_next hservice with ⟨o, -, -, rfl⟩ | ⟨o, -, -, -, -, -, rfl⟩
    · exact ⟨rfl, rfl, rfl, rfl, rfl⟩
    · exact ⟨rfl, rfl, rfl, rfl, rfl⟩

/-- No agent has a step after a fault (R181, R183, R185). -/
theorem fault_eq_none_of_step {s t : State} (h : step s = .next t) : s.fault = none := by
  rcases step_next h with ⟨-, hturn⟩ | ⟨-, w, turns, -, hturn⟩
  · exact (fgTurn_next hturn).1
  · obtain ⟨-, ⟨hf, -⟩, -⟩ := svcTurn_next hturn
    exact hf

/-- The checks on INIT: already initialized, or, before INIT, a phase other than Idle (R140). -/
theorem fgCheck_init_eq_none {s : State} (hc : CanIssue s) :
    fgCheck .init s = none ↔ s.initialized = false ∧ s.fg = .idle := by
  obtain ⟨-, hfg | hfg⟩ := hc
  · simp [fgCheck, hfg]
  · cases hi : s.initialized <;> simp [fgCheck, hfg, hi]

/-- INIT writes `initialized` and the enables, all together, exactly when it is issued from Idle and before any other
INIT (R26, R141). -/
theorem exec_init_next {s t : State} (h : exec .init s = .next t) :
    (s.initialized = false ∧ s.fg = .idle ∧
      t.initialized = true ∧ t.ienRda = true ∧ t.ienThre = true ∧ t.ienRls = true) ∨
    (¬ (s.initialized = false ∧ s.fg = .idle) ∧ SameControl s t) := by
  obtain ⟨hc, ⟨code, hcheck, rfl⟩ | ⟨hcheck, he⟩⟩ := exec_next_of_fg rfl h
  · refine .inr ⟨fun hidle => ?_, rfl, rfl, rfl, rfl, rfl⟩
    simp [(fgCheck_init_eq_none hc).2 hidle] at hcheck
  · obtain ⟨hn, hidle⟩ := (fgCheck_init_eq_none hc).1 hcheck
    cases he
    exact .inl ⟨hn, hidle, rfl, rfl, rfl, rfl⟩

/-- An issued operation makes `initialized` true exactly when it is INIT, from Idle (R26). -/
theorem exec_initialized_iff {i : Instr} (hi : isSvc i = false) {s t : State} (h : exec i s = .next t) :
    t.initialized = true ↔ s.initialized = true ∨ (s.fg = .idle ∧ i = .init) := by
  by_cases hinit : i = .init
  · subst hinit
    rcases exec_init_next h with ⟨hn, hidle, ht, -⟩ | ⟨hn, hsame⟩
    · simp [ht, hidle]
    · rw [hsame.initialized]
      simp only [and_true]
      exact ⟨.inl, fun hor => hor.elim id fun hidle => by simpa [hidle] using hn⟩
  · simp [(exec_frame_of_fg hi h).initialized hinit, hinit]

/-- Settles O45: of the steps that issue an operation, only INIT's makes `initialized` true, and no other step writes
it. -/
theorem onlyInitInitializes : Obligations.OnlyInitInitializes := by
  refine ⟨rfl, fun s t h => ?_⟩
  rcases step_issues_or_keeps_control h with ⟨hno, hsame⟩ | ⟨hm, i, ⟨hc, hi, ws, hd⟩, hexec⟩
  · rw [hsame.initialized]
    refine ⟨.inl, fun hor => hor.elim id fun ⟨hm, hidle, ws, hd⟩ => ?_⟩
    exact absurd ⟨⟨fault_eq_none_of_step h, .inl hidle⟩, rfl, ws, hd⟩ (hno hm .init)
  · simp [exec_initialized_iff hi hexec, hm, hd]

/-- CLRF and SETF leave the filter they are for, unless they fault; the others leave it as it is (R25, R145, R146). -/
theorem exec_filter {i : Instr} (hi : isSvc i = false) {s t : State} (h : exec i s = .next t) :
    t.filter = s.filter ∨ (i = .clrf ∧ t.filter = none) ∨ ∃ set, i = .setf set ∧ t.filter = some set := by
  have hframe := exec_frame_of_fg hi h
  obtain ⟨-, ⟨code, -, rfl⟩ | ⟨-, he⟩⟩ := exec_next_of_fg hi h
  · exact .inl rfl
  · cases i with
    | clrf => cases he; exact .inr (.inl ⟨rfl, rfl⟩)
    | setf set => cases he; exact .inr (.inr ⟨set, rfl, rfl⟩)
    | _ => exact .inl (hframe.filter nofun nofun)

/-- Settles O46: a step that issues no operation leaves the filter, and of the operations CLRF and SETF write it. -/
theorem onlySetfAndClrfWriteTheFilter : Obligations.OnlySetfAndClrfWriteTheFilter := by
  intro s t h hne
  rcases step_issues_or_keeps_control h with ⟨-, hsame⟩ | ⟨hm, i, ⟨-, hi, ws, hd⟩, hexec⟩
  · exact absurd hsame.filter hne
  · exact ⟨hm, i, ws, hd, (exec_filter hi hexec).resolve_left hne⟩

/-- An issued operation clears neither `ien_thre` nor `ien_rls`: only INIT writes them, and sets them (R27). -/
theorem exec_keeps_ienThre_ienRls {i : Instr} (hi : isSvc i = false) {s t : State} (h : exec i s = .next t) :
    (s.ienThre = true → t.ienThre = true) ∧ (s.ienRls = true → t.ienRls = true) := by
  by_cases hinit : i = .init
  · subst hinit
    rcases exec_init_next h with ⟨-, -, -, -, hthre, hrls⟩ | ⟨-, hsame⟩
    · exact ⟨fun _ => hthre, fun _ => hrls⟩
    · exact ⟨hsame.ienThre.trans, hsame.ienRls.trans⟩
  · have hframe := exec_frame_of_fg hi h
    exact ⟨(hframe.ienThre hinit).trans, (hframe.ienRls hinit).trans⟩

/-- Settles O47: by the frame, an issued operation that changes an enable is INIT, TXB or TXE. -/
theorem onlyInitAndTheBracketWriteTheEnables : Obligations.OnlyInitAndTheBracketWriteTheEnables := by
  intro s t h
  rcases step_issues_or_keeps_control h with ⟨-, hsame⟩ | ⟨hm, i, ⟨-, hi, ws, hd⟩, hexec⟩
  · refine ⟨hsame.ienThre.trans, hsame.ienRls.trans, fun hne => absurd ?_ hne⟩
    rw [hsame.ienRda, hsame.ienThre, hsame.ienRls]
  · obtain ⟨hthre, hrls⟩ := exec_keeps_ienThre_ienRls hi hexec
    refine ⟨hthre, hrls, fun hne => ⟨hm, i, ws, hd, ?_⟩⟩
    have hframe := exec_frame_of_fg hi hexec
    by_contra hnot
    obtain ⟨hinit, htxb, htxe⟩ : i ≠ .init ∧ i ≠ .txb ∧ i ≠ .txe := by simpa using hnot
    rw [hframe.ienRda hinit htxb htxe, hframe.ienThre hinit, hframe.ienRls hinit] at hne
    exact hne rfl

/-- An issued operation leaves `length`, or empties the buffer: only the atomic drain writes it (R22, R156). -/
theorem exec_length_of_fg {i : Instr} (hi : isSvc i = false) {s t : State} (h : exec i s = .next t) :
    t.length = s.length ∨ t.length = 0 := by
  have hframe := exec_frame_of_fg hi h
  obtain ⟨-, ⟨code, -, rfl⟩ | ⟨-, he⟩⟩ := exec_next_of_fg hi h
  · exact .inl rfl
  · cases i with
    | read max =>
      rcases readEffect_next he with ⟨_, rfl⟩ | ⟨_, _, _, rfl⟩ | ⟨_, _, _, rfl⟩ | ⟨_, _, _, rfl⟩
      · exact .inl rfl
      · exact .inr rfl
      · exact .inl rfl
      · exact .inl rfl
    | _ => exact .inl (hframe.length nofun)

/-- A foreground step leaves storage, and leaves `length` or empties the buffer (R21, R22). -/
theorem fgTurn_storage_and_length {s t : State} (h : fgTurn s = .next t) :
    t.storage = s.storage ∧ (t.length = s.length ∨ t.length = 0) := by
  rcases fgTurn_issues_or_keeps h with ⟨-, -, hstorage, hlength⟩ | ⟨i, ⟨-, hi, -⟩, hexec⟩
  · exact ⟨hstorage, hlength⟩
  · exact ⟨(exec_frame_of_fg hi hexec).storage, exec_length_of_fg hi hexec⟩

/-- Settles O48: a foreground step writes no element, and an SVC only emits or appends at `length` (R110). -/
theorem onlyAppendWritesStorage : Obligations.OnlyAppendWritesStorage := by
  intro s t h
  rcases step_next h with ⟨hm, hturn⟩ | ⟨hm, w, turns, -, hturn⟩
  · exact ⟨fun _ => fgTurn_storage_and_length (s := s.setSchedule s.turns.tail) hturn, fun hn => absurd hm hn⟩
  · refine ⟨fun hfg => absurd hfg hm, fun _ => ?_⟩
    obtain ⟨-, -, hservice⟩ := svcTurn_next hturn
    rcases serviceClass_next hservice with ⟨o, -, -, rfl⟩ | ⟨o, -, -, -, -, -, rfl⟩
    · exact ⟨fun _ _ => rfl, .inl ⟨rfl, rfl⟩⟩
    · exact ⟨fun a ha => Memory.read_write_other s.storage _ ha, .inr rfl⟩

/-! ### Reset -/

/-- Settles O14: reset lists no element of storage, so each holds its free byte. -/
theorem resetValues : Obligations.ResetValues :=
  fun _ _ _ _ => ⟨rfl, rfl, rfl, rfl, rfl, rfl, rfl, rfl, fun _ => rfl⟩

end Sys2Proof.Machine
end

section
/-! PROOFS. The encoding family: decoding and encoding are inverse to each other (O1, O2), what decoding refuses (O4), the
samples of an SVC and the members of a SETF payload (O5, O6), and the words and classes that the spec lists (O3, O8,
O9). -/

namespace Sys2Proof

open Sys2Proof.Machine

/-! ### Decoding a word by its fields (R78) -/

/-- A word with OP 1 and RES12 zero is the READ of its MAX field (R73). -/
theorem decode_read {w : Word} (hop : opField w = 1#4) (hres : w.extractLsb' 16 12 = 0#12) (rest : List Word) :
    decode (w :: rest) = .ok (.read (w.extractLsb' 0 16).toNat, rest) := by
  simp [decode, hop, hres]

/-- A SETF takes its eight payload words, whatever they are (R77). -/
theorem decode_setf (p0 p1 p2 p3 p4 p5 p6 p7 : Word) (rest : List Word) :
    decode (0x20000000 :: p0 :: p1 :: p2 :: p3 :: p4 :: p5 :: p6 :: p7 :: rest) =
      .ok (.setf (maskOfWords p0 p1 p2 p3 p4 p5 p6 p7), rest) := rfl

/-- A format Z word is refused exactly for a reserved bit (R74). -/
theorem decodeZ_error_iff (i : Instr) (w : Word) (rest : List Word) :
    (∃ e, decodeZ i w rest = .error e) ↔ w.extractLsb' 0 28 ≠ 0#28 := by
  unfold decodeZ
  split <;> simp [*]

/-- A SETF's payload is refused exactly when it is truncated (R78). -/
theorem decodeSetf_error_iff (rest : List Word) : (∃ e, decodeSetf rest = .error e) ↔ rest.length < 8 := by
  match rest with
  | _ :: _ :: _ :: _ :: _ :: _ :: _ :: _ :: _ => simp [decodeSetf]
  | [] | [_] | [_, _] | [_, _, _] | [_, _, _, _] | [_, _, _, _, _] | [_, _, _, _, _, _] | [_, _, _, _, _, _, _] =>
    simp [decodeSetf]

/-! ### The fields of an encoded word -/

/-- Each byte of a format S word is the sample it was made of, so its decoding carries those samples (R72). -/
theorem svcSamples_decodeSvc_encodeSvc (iir lsr rbr : Byte) :
    svcSamples (decodeSvc (encodeSvc iir lsr rbr)) = some (iir, lsr, rbr) := by
  rw [svcSamples_decodeSvc, encodeSvc_iir, encodeSvc_lsr, encodeSvc_rbr]

/-- OP of a READ's word (R73). -/
theorem opField_readWord (m : BitVec 16) : opField (0x10000000 ||| m.setWidth 32) = 1#4 := by
  refine BitVec.eq_of_getLsbD_eq fun i hi => ?_
  interval_cases i <;> simp [opField]

/-- RES12 of a READ's word (R73). -/
theorem reserved_readWord (m : BitVec 16) : (0x10000000 ||| m.setWidth 32 : Word).extractLsb' 16 12 = 0#12 := by
  refine BitVec.eq_of_getLsbD_eq fun i hi => ?_
  interval_cases i <;> simp

/-- MAX of a READ's word (R73). -/
theorem max_readWord (m : BitVec 16) : (0x10000000 ||| m.setWidth 32 : Word).extractLsb' 0 16 = m := by
  refine BitVec.eq_of_getLsbD_eq fun i hi => ?_
  interval_cases i <;> simp

/-! ### Decoding and encoding are inverse to each other -/

/-- Decoding the word of an SVC gives it back: the decoded SVC has the same samples, and they determine it. -/
theorem decode_encode_of_isSvc {i : Instr} (hi : isSvc i = true) (rest : List Word) :
    decode (encode i ++ rest) = .ok (i, rest) := by
  obtain ⟨⟨iir, lsr, rbr⟩, hs⟩ := Option.isSome_iff_exists.mp hi
  rw [encode_of_samples hs, List.singleton_append, decode_svc (encodeSvc_head iir lsr rbr),
    eq_of_samples (svcSamples_decodeSvc_encodeSvc iir lsr rbr) hs]

/-- Decoding the word of a READ gives its operand back when it fits in MAX (R73). -/
theorem decode_encode_read {max : Nat} (hmax : max ≤ 65535) (rest : List Word) :
    decode (encode (.read max) ++ rest) = .ok (.read max, rest) := by
  have hval : (BitVec.ofNat 16 max).toNat = max := Nat.mod_eq_of_lt (by omega)
  rw [encode, List.singleton_append, decode_read (opField_readWord _) (reserved_readWord _), max_readWord, hval]

/-- Settles O1, by the operation's format: S by its samples, R by its field, F by its mask, Z by its one word. -/
theorem decodeUndoesEncode : Obligations.DecodeUndoesEncode := by
  intro i rest hwf
  cases i with
  | read max => exact decode_encode_read (of_decide_eq_true hwf) rest
  | setf set => exact (decode_setf _ _ _ _ _ _ _ _ rest).trans (by rw [maskOfWords_wordsOfMask])
  | clrf | init | txb | txe => rfl
  | _ => exact decode_encode_of_isSvc rfl rest

/-- Settles O2, by the format of the word read: its fields, which decoding has checked or kept, determine the word. -/
theorem encodeUndoesDecode : Obligations.EncodeUndoesDecode := by
  intro ws rest i h
  cases ws with
  | nil => cases h
  | cons w ws =>
    rcases decode_cons_cases h with ⟨hw, rfl, rfl⟩ | ⟨hop, hres, rfl, rfl⟩ | ⟨hop, hres, hset⟩ | ⟨hres, rfl, hz⟩
    · rw [encode_of_samples (svcSamples_decodeSvc w), ← eq_encodeSvc hw]
      exact ⟨wf_of_isSvc (isSvc_decodeSvc w), rfl⟩
    · rw [encode, BitVec.ofNat_toNat, BitVec.setWidth_eq, ← eq_readWord hop hres]
      exact ⟨decide_eq_true (extract_le_16 w), rfl⟩
    · obtain ⟨p0, p1, p2, p3, p4, p5, p6, p7, rfl, rfl⟩ := decodeSetf_cases hset
      rw [encode, wordsOfMask_maskOfWords, eq_opWord hop hres]
      exact ⟨rfl, rfl⟩
    · rcases hz with ⟨hop, rfl⟩ | ⟨hop, rfl⟩ | ⟨hop, rfl⟩ | ⟨hop, rfl⟩ <;>
        exact ⟨rfl, by rw [eq_opWord hop hres]; rfl⟩

/-! ### What decoding refuses (R78 to R80) -/

/-- Settles O4, by the value of OP: each format refuses its own reserved fields, and format F a short payload. -/
theorem illegalWordsExactly : Obligations.IllegalWordsExactly := by
  intro w rest
  have hval : w.extractLsb' 28 4 = BitVec.ofNat 4 (opField w).toNat := by
    rw [BitVec.ofNat_toNat, BitVec.setWidth_eq, opField]
  have hlt := (opField w).isLt
  rw [hval]
  simp only [decode]
  generalize (opField w).toNat = n at hlt
  match n with
  | 0 => by_cases hres : w.extractLsb' 24 4 = 0#4 <;> simp [hres]
  | 1 => by_cases hres : w.extractLsb' 16 12 = 0#12 <;> simp [hres]
  | 2 => by_cases hres : w.extractLsb' 0 28 = 0#28 <;> simp [hres, decodeSetf_error_iff]
  | 3 | 4 | 5 | 6 => simp [decodeZ_error_iff]
  | n + 7 => simp [Nat.mod_eq_of_lt hlt]

/-- Settles O5: `decodeSvc` has a row for every cause value and carries the word's samples. -/
theorem everyCauseDecodesToSvc : Obligations.EveryCauseDecodesToSvc :=
  fun w rest h => ⟨decodeSvc w, decode_svc h rest, svcSamples_decodeSvc w⟩

/-! ### The members of a SETF payload (R77) -/

/-- The shift and the mask of R77 are the quotient and the remainder by 32. -/
theorem toNat_eq_word_add_bit (b : Byte) : b.toNat = 32 * (b >>> 5).toNat + (b &&& 31).toNat := by
  have hword : (b >>> 5).toNat = b.toNat / 32 := by rw [BitVec.toNat_ushiftRight, Nat.shiftRight_eq_div_pow]
  have hbit : (b &&& 31).toNat = b.toNat % 32 := by
    rw [BitVec.toNat_and]
    exact Nat.and_two_pow_sub_one_eq_mod b.toNat 5
  omega

/-- Settles O6: the set is the payload's mask, and bit `b` of it is bit `b & 31` of word `b >> 5`. -/
theorem setfPayloadIsMembershipMask : Obligations.SetfPayloadIsMembershipMask := by
  intro p0 p1 p2 p3 p4 p5 p6 p7 rest
  refine ⟨_, decode_setf p0 p1 p2 p3 p4 p5 p6 p7 rest, fun b => ?_⟩
  have hb := toNat_eq_word_add_bit b
  have hlt := b.isLt
  have hbit : (b &&& 31).toNat < 32 := Nat.lt_succ_of_le Nat.and_le_right
  rw [ByteSet.mem, hb]
  exact getLsbD_maskOfWords p0 p1 p2 p3 p4 p5 p6 p7 _ _ (by omega) hbit

/-! ### Words and classes that the spec lists -/

/-- Settles O3, by evaluating the decoder on each word. -/
theorem decodeReadsSpecWords : Obligations.DecodeReadsSpecWords :=
  ⟨rfl, rfl, rfl, rfl, rfl, rfl, rfl, rfl, rfl⟩

/-- Settles O8: the cause in a row's IIR sample is the row's own, whatever its other fields hold. -/
theorem defaultParametersNameTheSvcRows : Obligations.DefaultParametersNameTheSvcRows := by
  intro iirHi iir0 lsr rbr
  simp only [svcSamples, Option.map_some, causeOf_iirOf]
  decide

/-- Settles O9: a pseudo-operation is assembled as its base form, with the fixed samples shifted into their fields. -/
theorem pseudoOperationsExpand : Obligations.PseudoOperationsExpand := by
  refine ⟨fun b => ?_, fun l b => ?_, rfl, rfl, rfl, fun _ => rfl, fun _ _ => rfl, rfl, rfl, rfl⟩
  · simp [assemble, encodeSvc]
  · simp [assemble, encodeSvc]

end Sys2Proof
end

section
/-! PROOFS. The service family: the class of a cause (O7), what one SVC does and leaves (O17 to O22), and batches of received
bytes, as they fill the buffer (O23) and as a READ returns them (O41). -/

namespace Sys2Proof.Machine

/-! ### The class of a cause (R100) -/

/-- The causes of class `k`: the parameter of that name, or for OTHER none of the four. -/
def CauseHasClass (cfg : Config) (cause : BitVec 3) : EventClass → Prop
  | .rls => cause = cfg.causeRls
  | .rda => cause = cfg.causeRda
  | .thre => cause = cfg.causeThre
  | .cti => cause = cfg.causeCti
  | .other => cause ∉ [cfg.causeRls, cfg.causeRda, cfg.causeThre, cfg.causeCti]

/-- The class that the model answers has the cause, whatever the parameters: each test of `classOf` names its class. -/
theorem causeHasClass_classOf (cfg : Config) (cause : BitVec 3) : CauseHasClass cfg cause (classOf cfg cause) := by
  unfold classOf
  split_ifs with hrls hrda hthre hcti
  · exact hrls
  · exact hrda
  · exact hthre
  · exact hcti
  · simp [CauseHasClass, hrls, hrda, hthre, hcti]

/-- With distinct cause parameters no earlier test takes another class's cause. -/
theorem classOf_eq_iff {cfg : Config} (hl : cfg.Legal) (cause : BitVec 3) (k : EventClass) :
    classOf cfg cause = k ↔ CauseHasClass cfg cause k := by
  refine ⟨fun h => h ▸ causeHasClass_classOf cfg cause, fun h => ?_⟩
  cases k with
  | rls => exact classOf_rls h
  | rda => exact classOf_rda hl h
  | thre => exact classOf_thre hl h
  | cti => exact classOf_cti hl h
  | other => exact classOf_other h

/-- Settles O7, one class at a time: the cause is IIR[3:1] by definition. -/
theorem causeFieldSelectsTheClass : Obligations.CauseFieldSelectsTheClass :=
  fun _ iir hl => ⟨classOf_eq_iff hl (causeOf iir) .rls, classOf_eq_iff hl (causeOf iir) .rda,
    classOf_eq_iff hl (causeOf iir) .thre, classOf_eq_iff hl (causeOf iir) .cti, classOf_eq_iff hl (causeOf iir) .other⟩

/-! ### What one SVC does -/

/-- An SVC whose class may occur is the service of that class, whichever row it stands in (R116, R183). -/
theorem exec_of_mayOccur {i : Instr} {iir lsr rbr : Byte} {s : State} {c : EventClass}
    (hs : svcSamples i = some (iir, lsr, rbr)) (hc : classOf s.cfg (causeOf iir) = c) (hm : SvcMayOccur s c) :
    exec i s = serviceClass c lsr rbr s := by
  subst hc
  rw [exec_svc hs, svcStep_of_mayOccur hm]

section LineStatus

variable {lsr : Byte} {s : State} (rbr : Byte)

/-- R102: an error flag discards the byte before the data-ready test. -/
theorem serviceRls_of_error (he : LineErrorFlag s.cfg lsr) :
    serviceRls lsr rbr s = .next (s.emit (svcRecord true true (.lineError rbr lsr))) := by
  simp [serviceRls, (lineErrorFlag_iff _ _).2 he]

theorem serviceRls_of_dataReady (he : ¬ LineErrorFlag s.cfg lsr) (hd : lsr.getLsbD s.cfg.lsrDr.val = true) :
    serviceRls lsr rbr s = accept true rbr s := by
  have hready : dataReady s.cfg lsr = true := hd
  rw [← lineErrorFlag_iff] at he
  simp [serviceRls, he, hready]

theorem serviceRls_of_noData (he : ¬ LineErrorFlag s.cfg lsr) (hd : lsr.getLsbD s.cfg.lsrDr.val = false) :
    serviceRls lsr rbr s = .next (s.emit (svcRecord true false .noData)) := by
  have hready : dataReady s.cfg lsr = false := hd
  rw [← lineErrorFlag_iff] at he
  simp [serviceRls, he, hready]

end LineStatus

/-- Settles O17, by the two tests of R102 and R103, and for an accepted byte by the filter. -/
theorem lineStatusServiceResult : Obligations.LineStatusServiceResult := by
  intro i iir lsr rbr s hs hcause hm
  have hexec : exec i s = serviceRls lsr rbr s := exec_of_mayOccur hs (classOf_rls hcause) hm
  rw [hexec]
  refine ⟨serviceRls_of_error rbr, fun he hd hf => ?_, fun he hd hf hlt => ?_, serviceRls_of_noData rbr⟩
  · exact (serviceRls_of_dataReady rbr he hd).trans (accept_filtered hf)
  · exact (serviceRls_of_dataReady rbr he hd).trans (accept_appended hf hlt)

/-- Settles O18: the receive-data path accepts its byte at once. -/
theorem receiveDataServiceResult : Obligations.ReceiveDataServiceResult := by
  intro i iir lsr rbr s hs hl hcause hm
  have hexec : exec i s = accept false rbr s := exec_of_mayOccur hs (classOf_rda hl hcause) hm
  rw [hexec]
  exact ⟨accept_filtered, accept_appended⟩

/-- Settles O19: each of the three classes only emits its record. -/
theorem ignoredServiceResult : Obligations.IgnoredServiceResult :=
  fun _ _ _ _ _ hs hl => ⟨fun hcause => exec_of_mayOccur hs (classOf_thre hl hcause),
    fun hcause => exec_of_mayOccur hs (classOf_cti hl hcause),
    fun hcause => exec_of_mayOccur hs (classOf_other hcause)⟩

/-! ### That an SVC completes, and what it leaves -/

theorem accept_completes (lsrRead : Bool) (b : Byte) {s : State} (hlt : s.length < s.cfg.capacity) :
    ∃ t, accept lsrRead b s = .next t := by
  by_cases hf : FilterDrops s.cfg s.filter b
  · exact ⟨_, accept_filtered hf⟩
  · exact ⟨_, accept_appended hf hlt⟩

/-- Below the capacity every class's service has a next state (R113): only an append could stop. -/
theorem serviceClass_completes (c : EventClass) (lsr rbr : Byte) {s : State} (hlt : s.length < s.cfg.capacity) :
    ∃ t, serviceClass c lsr rbr s = .next t := by
  cases c with
  | rls =>
    by_cases he : LineErrorFlag s.cfg lsr
    · exact ⟨_, serviceRls_of_error rbr he⟩
    · cases hd : lsr.getLsbD s.cfg.lsrDr.val with
      | false => exact ⟨_, serviceRls_of_noData rbr he hd⟩
      | true =>
        obtain ⟨t, ht⟩ := accept_completes true rbr hlt
        exact ⟨t, (serviceRls_of_dataReady rbr he hd).trans ht⟩
  | rda => exact accept_completes false rbr hlt
  | thre | cti | other => exact ⟨_, rfl⟩

/-- An append stores its byte at `length` (R110). -/
theorem byteAt_appendedState_same (s : State) (b : Byte) (o : SvcOutcome) :
    (appendedState s b o).byteAt s.length = b :=
  s.byteAt_putByte_same s.length b

/-- An append leaves every other element (R110). -/
theorem byteAt_appendedState_other (s : State) (b : Byte) (o : SvcOutcome) {a : Nat} (ha : a ≠ s.length) :
    (appendedState s b o).byteAt a = s.byteAt a :=
  s.byteAt_putByte_other b ha

/-- Settles O20: a service that completes has emitted its record alone, or appended its byte at `length`. -/
theorem svcCompletesWithItsFrame : Obligations.SvcCompletesWithItsFrame := by
  intro i iir lsr rbr s hs hm hlt
  obtain ⟨t, ht⟩ := serviceClass_completes (classOf s.cfg (causeOf iir)) lsr rbr hlt
  rw [exec_of_mayOccur hs rfl hm, ht]
  rcases serviceClass_next ht with ⟨o, hiir, hno, rfl⟩ | ⟨o, hiir, hrbr, hact, -, -, rfl⟩
  · exact ⟨_, o, rfl, rfl, hiir, rfl, fun _ _ => ⟨rfl, rfl⟩, fun _ => ⟨rfl, rfl⟩, fun b hb => absurd hb (hno b)⟩
  · refine ⟨_, o, rfl, rfl, hiir, rfl, fun a ha => ?_, fun hno => absurd hact (hno rbr), fun b hb => ?_⟩
    · exact ⟨Memory.read_write_other s.storage rbr ha, byteAt_appendedState_other s rbr o ha⟩
    · cases hact.symm.trans hb
      exact ⟨rfl, byteAt_appendedState_same s rbr o, hrbr⟩

/-- Settles O21: of the two things a service can do, an append is of a byte that the filter does not drop. -/
theorem filteredByteNeverGrowsBuffer : Obligations.FilteredByteNeverGrowsBuffer := by
  intro i iir lsr rbr s t hs hf h
  obtain ⟨-, hservice⟩ := svcStep_next (exec_svc hs s ▸ h)
  rcases serviceClass_next hservice with ⟨o, -, -, rfl⟩ | ⟨o, -, -, -, hkept, -, -⟩
  · exact ⟨rfl, rfl⟩
  · exact absurd hf hkept

/-! ### An SVC and the foreground (R113, R188) -/

/-- `s` with another phase, stream, position and choices to come. -/
def State.withForeground (s : State) (fg : FgPhase) (stream : List Word) (index : Nat)
    (schedule recurring : List Turn) : State :=
  { s with fg := fg, stream := stream, index := index, schedule := schedule, recurring := recurring }

section Foreground

variable {s t : State} {lsr rbr : Byte} (fg : FgPhase) (stream : List Word) (index : Nat) (schedule recurring : List Turn)

theorem accept_withForeground {lsrRead : Bool} (h : accept lsrRead rbr s = .next t) :
    accept lsrRead rbr (s.withForeground fg stream index schedule recurring) =
      .next (t.withForeground fg stream index schedule recurring) := by
  rcases accept_next h with ⟨hf, rfl⟩ | ⟨hf, hlt, rfl⟩
  · exact accept_filtered (s := s.withForeground fg stream index schedule recurring) hf
  · exact accept_appended (s := s.withForeground fg stream index schedule recurring) hf hlt

/-- The two tests on the LSR sample read the parameters alone. -/
theorem serviceRls_withForeground (h : serviceRls lsr rbr s = .next t) :
    serviceRls lsr rbr (s.withForeground fg stream index schedule recurring) =
      .next (t.withForeground fg stream index schedule recurring) := by
  by_cases he : LineErrorFlag s.cfg lsr
  · cases (serviceRls_of_error rbr he).symm.trans h
    exact serviceRls_of_error (s := s.withForeground fg stream index schedule recurring) rbr he
  · cases hd : lsr.getLsbD s.cfg.lsrDr.val with
    | true =>
      rw [serviceRls_of_dataReady rbr he hd] at h
      exact (serviceRls_of_dataReady (s := s.withForeground fg stream index schedule recurring) rbr he hd).trans
        (accept_withForeground fg stream index schedule recurring h)
    | false =>
      cases (serviceRls_of_noData rbr he hd).symm.trans h
      exact serviceRls_of_noData (s := s.withForeground fg stream index schedule recurring) rbr he hd

theorem serviceClass_withForeground {c : EventClass} (h : serviceClass c lsr rbr s = .next t) :
    serviceClass c lsr rbr (s.withForeground fg stream index schedule recurring) =
      .next (t.withForeground fg stream index schedule recurring) := by
  cases c with
  | rls => exact serviceRls_withForeground fg stream index schedule recurring h
  | rda => exact accept_withForeground fg stream index schedule recurring h
  | thre | cti | other => cases h; rfl

end Foreground

/-- Settles O22: the gate of R183 and the service of each class read none of the foreground's fields. -/
theorem svcBlindToForeground : Obligations.SvcBlindToForeground := by
  intro i s t fg stream index schedule recurring hi h
  obtain ⟨⟨iir, lsr, rbr⟩, hs⟩ := Option.isSome_iff_exists.1 hi
  obtain ⟨hm, hservice⟩ := svcStep_next (exec_svc hs s ▸ h)
  exact (exec_of_mayOccur (s := s.withForeground fg stream index schedule recurring) hs rfl hm).trans
    (serviceClass_withForeground fg stream index schedule recurring hservice)

/-! ### A batch of received bytes -/

/-- The events that deliver `bytes` to the receive-data path: the words of R84's `rx`. -/
def receiveEvents (bytes : List Byte) : List Turn := bytes.map fun b => .svc (0x00040000 ||| b.setWidth 32)

/-- The outcome of an SVC that appended `b` by the receive-data path (R104). -/
def receivedOutcome (b : Byte) : SvcOutcome := ⟨true, false, true, .appended b⟩

/-- `s` with `bytes` appended in their order, each with its record. -/
def receivedState (bytes : List Byte) (s : State) : State :=
  bytes.foldl (fun s b => appendedState s b (receivedOutcome b)) s

@[simp] theorem receivedState_nil (s : State) : receivedState [] s = s := rfl

@[simp] theorem receivedState_cons (b : Byte) (bytes : List Byte) (s : State) :
    receivedState (b :: bytes) s = receivedState bytes (appendedState s b (receivedOutcome b)) := rfl

@[simp] theorem receivedState_concat (bytes : List Byte) (b : Byte) (s : State) :
    receivedState (bytes ++ [b]) s = appendedState (receivedState bytes s) b (receivedOutcome b) := by
  simp [receivedState]

/-- The receive word is the format S word of cause 2 (R72, R84). -/
theorem receiveWord_eq_encodeSvc (b : Byte) : (0x00040000 ||| b.setWidth 32 : Word) = encodeSvc 0x04 0x00 b := by
  simp [encodeSvc]

/-- The CAUSE field of a format S word is the cause of its IIR sample (R72). -/
theorem encodeSvc_cause (iir lsr rbr : Byte) : (encodeSvc iir lsr rbr).extractLsb' 17 3 = causeOf iir := by
  have hfield := extract_extract (encodeSvc iir lsr rbr) 16 8 1 3 (by omega)
  rw [encodeSvc_iir] at hfield
  exact hfield.symm

section Receive

variable {s : State} (hl : s.cfg.Legal) (hcause : s.cfg.causeRda = 2) (hm : SvcMayOccur s .rda) (hnone : s.filter = none)
  (hlt : s.length < s.cfg.capacity)

include hl hcause hm hnone hlt

/-- With no filter a receive event appends its byte (R104, R107, R110). -/
theorem agentStep_receive (b : Byte) :
    agentStep (.svc (0x00040000 ||| b.setWidth 32)) s = .next (appendedState s b (receivedOutcome b)) := by
  have hclass : classOf s.cfg ((encodeSvc 0x04 0x00 b).extractLsb' 17 3) = .rda := by
    rw [encodeSvc_cause]
    exact classOf_rda hl hcause.symm
  have hkept : ¬ FilterDrops s.cfg s.filter b := by simp [FilterDrops, hnone]
  have hturn := svcTurn_of_head (encodeSvc_head 0x04 0x00 b) (hclass ▸ hm)
  rw [hclass, encodeSvc_rbr] at hturn
  rw [receiveWord_eq_encodeSvc]
  exact hturn.trans (accept_appended hkept hlt)

/-- A batch of receive events is so many steps, each an append; every append keeps the conditions for the next, a wrap
to empty included. -/
theorem runSteps_receive (bytes : List Byte) (turns : List Turn) :
    runSteps bytes.length (s.setSchedule (receiveEvents bytes ++ turns)) =
      .next ((receivedState bytes s).setSchedule turns) := by
  induction bytes generalizing s with
  | nil => rfl
  | cons b bytes ih =>
    have hstep := step_of_agentStep (receiveEvents bytes ++ turns) (agentStep_receive hl hcause hm hnone hlt b)
    exact (runSteps_succ bytes.length hstep).trans
      (ih (s := appendedState s b (receivedOutcome b)) hl hcause hm hnone (lengthAfterAppend_lt hlt))

/-- The batch as the choices that `s` itself has to come first (assumption 4). -/
theorem runSteps_of_receiveEvents {bytes : List Byte} {turns : List Turn}
    (hschedule : s.schedule = receiveEvents bytes ++ turns) :
    runSteps bytes.length s = .next ((receivedState bytes s).setSchedule turns) := by
  have hs : s = s.setSchedule (receiveEvents bytes ++ turns) := hschedule ▸ rfl
  exact (congrArg _ hs).trans (runSteps_receive hl hcause hm hnone hlt bytes turns)

end Receive

/-- What every append leaves, a batch leaves (R113, R188). -/
theorem receivedState_of_appendedState {α : Type} (field : State → α)
    (hfield : ∀ s b o, field (appendedState s b o) = field s) (bytes : List Byte) (s : State) :
    field (receivedState bytes s) = field s := by
  induction bytes generalizing s with
  | nil => rfl
  | cons b bytes ih => exact (ih _).trans (hfield s b (receivedOutcome b))

@[simp] theorem receivedState_cfg (bytes : List Byte) (s : State) : (receivedState bytes s).cfg = s.cfg :=
  receivedState_of_appendedState State.cfg (fun _ _ _ => rfl) bytes s

@[simp] theorem receivedState_initialized (bytes : List Byte) (s : State) :
    (receivedState bytes s).initialized = s.initialized :=
  receivedState_of_appendedState State.initialized (fun _ _ _ => rfl) bytes s

@[simp] theorem receivedState_fg (bytes : List Byte) (s : State) : (receivedState bytes s).fg = s.fg :=
  receivedState_of_appendedState State.fg (fun _ _ _ => rfl) bytes s

@[simp] theorem receivedState_fault (bytes : List Byte) (s : State) : (receivedState bytes s).fault = s.fault :=
  receivedState_of_appendedState State.fault (fun _ _ _ => rfl) bytes s

@[simp] theorem receivedState_stream (bytes : List Byte) (s : State) : (receivedState bytes s).stream = s.stream :=
  receivedState_of_appendedState State.stream (fun _ _ _ => rfl) bytes s

@[simp] theorem receivedState_recurring (bytes : List Byte) (s : State) : (receivedState bytes s).recurring = s.recurring :=
  receivedState_of_appendedState State.recurring (fun _ _ _ => rfl) bytes s

theorem receivedState_trace (bytes : List Byte) (s : State) :
    (receivedState bytes s).trace = s.trace ++ bytes.map fun b => .svc (receivedOutcome b) := by
  induction bytes generalizing s with
  | nil => simp
  | cons b bytes ih => simp [ih, appendedState]

/-- A batch that stays below the capacity does not wrap (R110). -/
theorem receivedState_length_of_lt {bytes : List Byte} {s : State} (hlt : s.length + bytes.length < s.cfg.capacity) :
    (receivedState bytes s).length = s.length + bytes.length := by
  induction bytes using List.reverseRecOn with
  | nil => rfl
  | append_singleton bytes b ih =>
    rw [List.length_append, List.length_singleton] at hlt ⊢
    simp only [receivedState_concat, appendedState, receivedState_cfg, ih (by omega)]
    split <;> omega

/-- A batch that just fills the buffer wraps it to empty with its last byte (R110, R111). -/
theorem receivedState_length_of_eq {bytes : List Byte} {s : State} (hne : bytes ≠ [])
    (heq : s.length + bytes.length = s.cfg.capacity) : (receivedState bytes s).length = 0 := by
  obtain ⟨front, b, rfl⟩ := (List.eq_nil_or_concat' bytes).resolve_left hne
  rw [List.length_append, List.length_singleton] at heq
  have hfront : (receivedState front s).length = s.length + front.length := receivedState_length_of_lt (by omega)
  simp only [receivedState_concat, appendedState, receivedState_cfg, hfront]
  split <;> omega

/-- A batch that fits stores its bytes in order from `length`, and no other element (R110). -/
theorem read_receivedState {bytes : List Byte} {s : State} (hfits : s.length + bytes.length ≤ s.cfg.capacity) (a : Nat) :
    Memory.read (receivedState bytes s).storage a =
      if s.length ≤ a ∧ a < s.length + bytes.length then bytes[a - s.length]? else Memory.read s.storage a := by
  induction bytes using List.reverseRecOn with
  | nil => rw [if_neg (by rw [List.length_nil]; omega)]; rfl
  | append_singleton bytes b ih =>
    rw [List.length_append, List.length_singleton] at hfits ⊢
    simp only [receivedState_concat, appendedState, receivedState_length_of_lt (bytes := bytes) (s := s) (by omega)]
    by_cases ha : a = s.length + bytes.length
    · rw [ha, Memory.read_write_same, if_pos (by omega)]
      simp
    · rw [Memory.read_write_other _ b ha, ih (by omega)]
      by_cases hin : s.length ≤ a ∧ a < s.length + bytes.length
      · rw [if_pos hin, if_pos (by omega), List.getElem?_append_left (by omega)]
      · rw [if_neg hin, if_neg (by omega)]

/-- Settles O23: the run reaches the state with the batch received, whose fields the lemmas above give. -/
theorem batchFillsInOrderAndWrapsAtCapacity : Obligations.BatchFillsInOrderAndWrapsAtCapacity := by
  intro s bytes turns h hm hnone hempty hcause hfits hschedule
  have hrun := runSteps_of_receiveEvents h.cfgLegal hcause hm hnone h.lengthBound hschedule
  have hread := read_receivedState (bytes := bytes) (s := s) (by omega)
  rw [hempty] at hread
  refine ⟨_, hrun, rfl, ?_, fun j hj => ?_, fun j hj => ?_, receivedState_trace bytes s⟩
  · split
    next heq =>
      have hpos := h.cfgLegal.1
      exact receivedState_length_of_eq (List.ne_nil_of_length_pos (by omega)) (by omega)
    next hne =>
      exact (receivedState_length_of_lt (by omega)).trans (by omega)
  · exact (hread j).trans (by simp [hj])
  · exact (hread j).trans (by simp [hj])

/-! ### A READ with no SVC interleaved (R157) -/

/-- With no choice to come the foreground moves (R184; assumption 4). -/
theorem step_of_turns_nil {s : State} (h : s.turns = []) : step s = fgTurn s := by
  simp [step, turn, h]

/-- The state that a READ leaves when it answers `out`: an empty buffer and the result (R155). -/
def resetState (out : List Byte) (s : State) : State := ((s.setLength 0).setFg .idle).emit (readRecord out)

/-- The bytes of elements `0` to `n - 1`, oldest first. -/
def firstBytes (n : Nat) (s : State) : List Byte := (List.range n).map s.byteAt

section Drain

variable {s : State} (hf : s.fault = none) (ht : s.turns = [])

include hf ht

/-- With the copy done, the last step resets (R155). -/
theorem step_rdReset {out : List Byte} (hfg : s.fg = .rdReset out) : step s = .next (resetState out s) :=
  (step_of_turns_nil ht).trans (fgTurn_rdReset hf hfg)

theorem step_rdCopy {n k : Nat} {out : List Byte} (hfg : s.fg = .rdCopy n k out) (hk : k < n)
    (hn : n ≤ s.cfg.capacity) :
    step s = .next (s.setFg
      (if k + 1 = n then .rdReset (out ++ [s.byteAt k]) else .rdCopy n (k + 1) (out ++ [s.byteAt k]))) := by
  rw [step_of_turns_nil ht, fgTurn_rdCopy hf hfg, microCpy_of_lt out hk (by omega)]

/-- A copy with `d + 1` elements left, from `k` on, takes one step for each (R153). -/
theorem runSteps_rdCopy {k d : Nat} {out : List Byte} (hfg : s.fg = .rdCopy (k + (d + 1)) k out)
    (hn : k + (d + 1) ≤ s.cfg.capacity) :
    runSteps (d + 1) s = .next (s.setFg (.rdReset (out ++ (List.range' k (d + 1)).map s.byteAt))) := by
  induction d generalizing s k out with
  | zero =>
    have hlast := step_rdCopy hf ht hfg (by omega) hn
    rw [if_pos rfl] at hlast
    exact runSteps_succ 0 hlast
  | succ d ih =>
    rw [show k + (d + 1 + 1) = k + 1 + (d + 1) by omega] at hfg hn
    have hcopy := step_rdCopy hf ht hfg (by omega) hn
    rw [if_neg (by omega)] at hcopy
    have hrest := ih (s := s.setFg (.rdCopy (k + 1 + (d + 1)) (k + 1) (out ++ [s.byteAt k]))) hf ht rfl hn
    rw [List.range'_succ, List.map_cons, List.append_cons]
    exact (runSteps_succ _ hcopy).trans hrest

/-- A copy of `n` elements takes one step for each and one to reset; of none, the reset alone (R150, R152). -/
theorem runSteps_copyPhase {n : Nat} (hfg : s.fg = copyPhase n) (hn : n ≤ s.cfg.capacity) :
    runSteps (n + 1) s = .next (resetState (firstBytes n s) s) := by
  cases n with
  | zero => exact runSteps_succ 0 (step_rdReset hf ht hfg)
  | succ d =>
    rw [← Nat.zero_add (d + 1)] at hn
    have hcopied := runSteps_rdCopy (k := 0) (out := []) hf ht (by simpa [copyPhase] using hfg) hn
    rw [runSteps_add 1 hcopied, firstBytes, List.range_eq_range']
    exact runSteps_succ 0 (step_rdReset (s := s.setFg (.rdReset _)) hf ht rfl)

theorem step_rdCount {max : Nat} (hfg : s.fg = .rdCount max) :
    step s = .next (s.setFg (copyPhase (min max s.length))) :=
  (step_of_turns_nil ht).trans (fgTurn_rdCount hf hfg)

end Drain

/-- A word that decodes to a foreground operation is issued as that operation (R140). -/
theorem fgIssue_of_decode {s : State} {i : Instr} {ws : List Word} (hd : decode s.stream = .ok (i, ws))
    (hi : isSvc i = false) : fgIssue s = exec i s := by
  cases hs : s.stream with
  | nil => rw [hs, decode_nil] at hd; cases hd
  | cons w rest =>
    rw [hs] at hd
    simp [fgIssue, hs, hd, hi]

/-- The steps of a READ of a buffer that is not empty: one for the atomic drain (R156); otherwise CHK, under AtCopy CNT, the
copies and RST. -/
def drainSteps (s : State) (max : Nat) : Nat :=
  if s.cfg.hardenedDrain = true then 1
  else min max s.length + 2 + (if s.cfg.readLenSample = .atCopy then 1 else 0)

/-- The atomic drain leaves Idle as it finds it, and so the state that RST would leave (R156). -/
theorem readEffect_eq_resetState_of_hardened (max : Nat) {s : State} (hl : s.length ≠ 0) (hlt : s.length < s.cfg.capacity)
    (hdrain : s.cfg.hardenedDrain = true) (hidle : s.fg = .idle) :
    readEffect max s = .next (resetState (firstBytes (min max s.length) s) s) := by
  have hfg : s.setLength 0 = (s.setLength 0).setFg .idle := hidle ▸ rfl
  rw [readEffect_of_hardened max hl hdrain, drainAtomic_of_lt hlt, resetState, ← hfg, firstBytes]

section Read

variable {s : State} (hf : s.fault = none) (ht : s.turns = []) (hi : s.initialized = true) (hidle : s.fg = .idle)

include hf ht hi hidle

/-- The READ at the head of the stream is issued when the foreground is Idle (R140, R181). -/
theorem step_read {max : Nat} {rest : List Word} (hmax : max ≤ 65535) (hstream : s.stream = encode (.read max) ++ rest) :
    step s = readEffect max (s.retire 1) := by
  have hd : decode s.stream = .ok (.read max, rest) := hstream ▸ decode_encode_read hmax rest
  rw [step_of_turns_nil ht, fgTurn_issue ⟨hf, .inl hidle⟩, fgIssue_of_decode hd rfl]
  exact exec_read_of_idle max hf hidle hi

/-- Every setting of the drain answers the oldest bytes and leaves the same state (R157). -/
theorem runSteps_read {max : Nat} {rest : List Word} (hmax : max ≤ 65535)
    (hstream : s.stream = encode (.read max) ++ rest) (hl : s.length ≠ 0) (hlt : s.length < s.cfg.capacity) :
    runSteps (drainSteps s max) s = .next (resetState (firstBytes (min max s.length) s) (s.retire 1)) := by
  have hissue := step_read hf ht hi hidle hmax hstream
  have hcount : min max s.length ≤ s.cfg.capacity := (Nat.min_le_right _ _).trans hlt.le
  cases hdrain : s.cfg.hardenedDrain with
  | true =>
    have hatomic := readEffect_eq_resetState_of_hardened max (s := s.retire 1) hl hlt hdrain hidle
    rw [drainSteps, if_pos hdrain]
    exact runSteps_succ 0 (hissue.trans hatomic)
  | false =>
    have hcopy := runSteps_copyPhase (s := (s.retire 1).setFg (copyPhase (min max s.length))) hf ht rfl hcount
    cases hsample : s.cfg.readLenSample with
    | once =>
      rw [readEffect_of_once max (s := s.retire 1) hl hdrain hsample] at hissue
      rw [drainSteps, hdrain, hsample]
      exact (runSteps_succ _ hissue).trans hcopy
    | atCopy =>
      rw [readEffect_of_atCopy max (s := s.retire 1) hl hdrain hsample] at hissue
      have hcnt := step_rdCount (s := (s.retire 1).setFg (.rdCount max)) hf ht rfl
      rw [drainSteps, hdrain, hsample]
      exact (runSteps_succ _ hissue).trans ((runSteps_succ _ hcnt).trans hcopy)

end Read

/-- The bytes of a batch received into an empty buffer are its first elements (R110). -/
theorem firstBytes_receivedState {bytes : List Byte} {s : State} (hempty : s.length = 0)
    (hfits : bytes.length ≤ s.cfg.capacity) : firstBytes bytes.length (receivedState bytes s) = bytes := by
  refine List.ext_getElem (by simp [firstBytes]) fun j hj hj' => ?_
  have hread := read_receivedState (bytes := bytes) (s := s) (by omega) j
  rw [if_pos (by omega), hempty, Nat.sub_zero, List.getElem?_eq_getElem hj'] at hread
  simpa [firstBytes] using State.byteAt_of_read hread

/-- Settles O41: the batch fills the buffer without a wrap, and the READ that follows answers its first elements. -/
theorem deliveredBytesComeBackInOrder : Obligations.DeliveredBytesComeBackInOrder := by
  intro s bytes max rest h hf hi hidle hnone hempty hcause hne hlt hle hmax hschedule hrecurring hstream
  obtain ⟨-, -, hrda⟩ := h.afterInit hi
  have hm : SvcMayOccur s .rda := ⟨hf, hi, fun _ => ⟨nofun, fun _ => hrda.2 (by simp [hidle]), nofun, nofun⟩⟩
  have hbatch := runSteps_of_receiveEvents (turns := []) h.cfgLegal hcause hm hnone h.lengthBound
    (hschedule.trans (List.append_nil _).symm)
  have hlength : (receivedState bytes s).length = bytes.length := by
    rw [receivedState_length_of_lt (by omega), hempty, Nat.zero_add]
  have hturns : ((receivedState bytes s).setSchedule []).turns = [] :=
    State.turns_eq_nil.2 ⟨rfl, (receivedState_recurring bytes s).trans hrecurring⟩
  have hpos : (receivedState bytes s).length ≠ 0 := hlength ▸ List.length_eq_zero_iff.not.2 hne
  have hbelow : (receivedState bytes s).length < (receivedState bytes s).cfg.capacity := by
    rwa [hlength, receivedState_cfg]
  have hfirst : firstBytes (min max (receivedState bytes s).length) ((receivedState bytes s).setSchedule []) = bytes := by
    rw [hlength, Nat.min_eq_right hle]
    exact firstBytes_receivedState hempty hlt.le
  have hread := runSteps_read (s := (receivedState bytes s).setSchedule []) (by simpa using hf) hturns (by simpa using hi)
    (by simpa using hidle) hmax (by simpa using hstream) hpos hbelow
  rw [State.setSchedule_length, hfirst] at hread
  refine ⟨_, _, (runSteps_add _ hbatch).trans hread, ?_, rfl, rfl, ?_⟩
  · exact congrArg (· ++ [readRecord bytes]) (receivedState_trace bytes s)
  · simp [resetState, hstream, encode]

end Sys2Proof.Machine
end

section
/-! PROOFS. The foreground family: the issue checks and what a fault leaves (O10, O24, O26), the operations that are one step
(O28 to O32), READ and its micro-steps (O34 to O39), and the drain as a whole, alone and raced by SVCs (O40, O42, O51,
O53). -/

namespace Sys2Proof.Machine

/-! ### Where a foreground step goes -/

/-- When the foreground agent issues, the step is the issue of the stream's head, with the choice used up (R140, R181). -/
theorem step_of_canIssue {s : State} (hc : CanIssue s) (hm : FgMoves s) :
    step s = fgIssue (s.setSchedule s.turns.tail) :=
  (step_of_fgMoves hm).trans (fgTurn_issue (s := s.setSchedule s.turns.tail) hc)

/-- Settles O10: a word that decodes to a foreground operation is issued as it. -/
theorem foregroundStepRunsDecodedOperation : Obligations.ForegroundStepRunsDecodedOperation := by
  intro s i rest hc hm hd hi
  exact (step_of_canIssue hc hm).trans (fgIssue_of_decode (s := s.setSchedule s.turns.tail) hd hi)

/-! ### The faults of an issue (R140, R185) -/

/-- The model's fault leaves the stream and the position too, which `RaisesFault` leaves open (assumption 6). -/
theorem raisesFault_of_faultedState {o : Host.Outcome State Fault Refusal} {s : State} {code : FaultCode} {word : Word}
    {schedule : List Turn} (h : o = .next (faultedState (s.setSchedule schedule) code word)) : RaisesFault o s code word :=
  ⟨s.stream, s.index, schedule, h⟩

/-- A stream that does not decode to a foreground operation raises F_ILLEGAL, before any other check. -/
theorem step_raises_illegal {s : State} {w : Word} {rest : List Word} (hc : CanIssue s) (hm : FgMoves s)
    (hs : s.stream = w :: rest)
    (hbad : (∃ e, decode s.stream = .error e) ∨ (∃ i ws, decode s.stream = .ok (i, ws) ∧ isSvc i = true)) :
    RaisesFault (step s) s .illegal w := by
  refine raisesFault_of_faultedState (schedule := s.turns.tail) ((step_of_canIssue hc hm).trans ?_)
  rw [hs] at hbad
  rcases hbad with ⟨e, hd⟩ | ⟨i, ws, hd, hi⟩
  · simp only [fgIssue, State.setSchedule_stream, hs, hd]
    rfl
  · simp only [fgIssue, State.setSchedule_stream, hs, hd, hi, if_true]
    rfl

/-- A reserved bit makes the word of an operation without a field of its own illegal (R74, R75, R80). -/
theorem reservedBitsFault_of_two_le {op : BitVec 4} (hop : 2 ≤ op.toNat) : ReservedBitsFault op := by
  rintro s w rest hc hm hs rfl hres
  have hillegal : ∃ e, decode (w :: rest) = .error e :=
    (illegalWordsExactly w rest).2 (.inr (.inr (.inr (.inl ⟨hop, hres⟩))))
  exact step_raises_illegal hc hm hs (.inl (hs ▸ hillegal))

section Checks

variable {i : Instr} {s : State}

/-- The first check that applies raises its fault. -/
theorem exec_raises_of_fgCheck (hi : isSvc i = false) (hc : CanIssue s) {code : FaultCode} (hcheck : fgCheck i s = some code) :
    RaisesFault (exec i s) s code (firstWord i) :=
  raisesFault_of_faultedState (schedule := s.schedule) ((exec_fg hi s).trans (issue_fault (fgEffect i) hc hcheck))

/-- Where no check applies the operation has its effect. -/
theorem exec_of_fgCheck (hi : isSvc i = false) (hc : CanIssue s) (hcheck : fgCheck i s = none) :
    exec i s = fgEffect i (s.retire (encode i).length) :=
  (exec_fg hi s).trans (issue_ok (fgEffect i) hc hcheck)

theorem exec_init_raises_reInit (hc : CanIssue s) (hinit : s.initialized = true) :
    RaisesFault (exec .init s) s .reInit (firstWord .init) :=
  exec_raises_of_fgCheck rfl hc (by simp [fgCheck, hinit])

theorem exec_raises_notInit (hi : isSvc i = false) (hc : CanIssue s) (hne : i ≠ .init) (hn : s.initialized = false) :
    RaisesFault (exec i s) s .notInit (firstWord i) :=
  exec_raises_of_fgCheck hi hc (by simp [fgCheck, hne, hn])

theorem exec_raises_fgBusy (hi : isSvc i = false) (hc : CanIssue s) (hfresh : ¬ (i = .init ∧ s.initialized = true))
    (hinit : ¬ (i ≠ .init ∧ s.initialized = false)) (hfg : s.fg = .writing) (hne : i ≠ .txe) :
    RaisesFault (exec i s) s .fgBusy (firstWord i) :=
  exec_raises_of_fgCheck hi hc (by rw [fgCheck, if_neg hfresh, if_neg hinit, if_pos ⟨hfg, hne⟩])

theorem exec_txe_raises_txState (hc : CanIssue s) (hinit : s.initialized = true) (hfg : s.fg ≠ .writing) :
    RaisesFault (exec .txe s) s .txState (firstWord .txe) :=
  exec_raises_of_fgCheck rfl hc (by simp [fgCheck, hinit, hfg])

/-- After INIT an open bracket lets TXE alone through (R140). -/
theorem exec_raises_fgBusy_of_initialized (hi : isSvc i = false) (hni : i ≠ .init) (hne : i ≠ .txe) (hf : s.fault = none)
    (hfg : s.fg = .writing) (hinit : s.initialized = true) : RaisesFault (exec i s) s .fgBusy (firstWord i) :=
  exec_raises_fgBusy hi ⟨hf, .inr hfg⟩ (by simp [hni]) (by simp [hinit]) hfg hne

/-- After INIT, from Idle, an operation other than INIT and TXE has its effect (R140). -/
theorem exec_of_idle (hi : isSvc i = false) (hni : i ≠ .init) (hne : i ≠ .txe) (hf : s.fault = none)
    (hidle : s.fg = .idle) (hinit : s.initialized = true) : exec i s = fgEffect i (s.retire (encode i).length) :=
  exec_of_fgCheck hi ⟨hf, .inl hidle⟩ (by simp [fgCheck, hni, hne, hidle, hinit])

end Checks

/-- The effect of an operation raises no fault. -/
theorem fgEffect_fault {i : Instr} {s t : State} (h : fgEffect i s = .next t) : t.fault = s.fault := by
  cases i with
  | read max => rcases readEffect_next h with ⟨_, rfl⟩ | ⟨_, _, _, rfl⟩ | ⟨_, _, _, rfl⟩ | ⟨_, _, _, rfl⟩ <;> rfl
  | setf _ | clrf | init | txb | txe => cases h; rfl
  | _ => cases h

/-- Settles O24, a clause a check; where none applies, the effect is what is left. -/
theorem issueChecksInOrder : Obligations.IssueChecksInOrder := by
  refine ⟨fun s w rest hc hm hs hbad => step_raises_illegal hc hm hs hbad, fun i s hi hc => ⟨?_, ?_, ?_, ?_, ?_⟩⟩
  · rintro ⟨rfl, hinit⟩
    exact exec_init_raises_reInit hc hinit
  · rintro ⟨hne, hn⟩
    exact exec_raises_notInit hi hc hne hn
  · exact exec_raises_fgBusy hi hc
  · rintro hinit rfl hfg
    exact exec_txe_raises_txState hc hinit hfg
  · intro hfresh hinit hbusy hbracket t h
    have hcheck : fgCheck i s = none := by
      rw [fgCheck, if_neg hfresh, if_neg hinit, if_neg hbusy, if_neg hbracket]
    rw [exec_of_fgCheck hi hc hcheck] at h
    exact (fgEffect_fault h).trans hc.1

/-- A foreground step raises no fault, or it does nothing but raise one. -/
theorem fgTurn_fault {s t : State} (h : fgTurn s = .next t) :
    t.fault = none ∨ ∃ code word, t = faultedState s code word := by
  obtain ⟨hf, ⟨_, _, rfl⟩ | ⟨_, _, _, _, _, _, rfl⟩ | ⟨_, _, rfl⟩ | ⟨_, w, _, _, hissue⟩⟩ := fgTurn_next h
  · exact .inl hf
  · exact .inl hf
  · exact .inl hf
  · rcases hissue with ⟨_, rfl⟩ | ⟨i, _, _, hi, hexec⟩
    · exact .inr ⟨_, _, rfl⟩
    · obtain ⟨-, ⟨code, -, rfl⟩ | ⟨-, he⟩⟩ := exec_next_of_fg hi hexec
      · exact .inr ⟨_, _, rfl⟩
      · exact .inl ((fgEffect_fault he).trans hf)

/-- An SVC raises no fault (R186). -/
theorem svcTurn_fault {w : Word} {s t : State} (h : svcTurn w s = .next t) : t.fault = none := by
  obtain ⟨-, ⟨hf, -⟩, hservice⟩ := svcTurn_next h
  rcases serviceClass_next hservice with ⟨_, _, _, rfl⟩ | ⟨_, _, _, _, _, _, rfl⟩
  · exact hf
  · exact hf

/-- Settles O26: a step that ends with a fault raised it, and did nothing else. -/
theorem faultLeavesTheStream : Obligations.FaultLeavesTheStream := by
  intro s t r h hr
  rcases step_next h with ⟨-, hturn⟩ | ⟨-, w, turns, -, hturn⟩
  · rcases fgTurn_fault hturn with hnone | ⟨code, word, rfl⟩
    · cases hnone.symm.trans hr
    · exact ⟨rfl, rfl, rfl⟩
  · cases (svcTurn_fault hturn).symm.trans hr

/-! ### The operations that are one step -/

/-- INIT from Idle, before any other INIT, has its effect (R141). -/
theorem exec_init_of_idle {s : State} (hf : s.fault = none) (hidle : s.fg = .idle) (hn : s.initialized = false) :
    exec .init s = .next (s.retire 1).setInitialized :=
  have hc : CanIssue s := ⟨hf, .inl hidle⟩
  exec_of_fgCheck rfl hc ((fgCheck_init_eq_none hc).2 ⟨hn, hidle⟩)

/-- Settles O28: the invariant gives the corner case before INIT, and INIT's own writes the one after it. -/
theorem initEnablesTheThreeSources : Obligations.InitEnablesTheThreeSources := by
  refine ⟨fun s => exec_init_of_idle, fun s => exec_init_raises_reInit, fun s t c h hf hn hexec => ?_,
    reservedBitsFault_of_two_le (by decide)⟩
  obtain ⟨hlength, hfilter, hidle, -⟩ := h.beforeInit hn
  cases (exec_init_of_idle hf hidle hn).symm.trans hexec
  exact ⟨hlength, hfilter, hf, rfl, fun _ => ⟨fun _ => rfl, fun _ => rfl, fun _ => rfl, fun _ => rfl⟩⟩

/-- The empty set has no member, so what it drops it drops by NUL_MATCH (R108, R145). -/
theorem filterDrops_empty_iff (cfg : Config) (b : Byte) : FilterDrops cfg (some 0) b ↔ cfg.nulMatch = true ∧ b = 0 := by
  simp [FilterDrops]

/-- Settles O29: from Idle after INIT no check applies, and format F has no field of its own in its first word. -/
theorem setfInstallsTheFilter : Obligations.SetfInstallsTheFilter :=
  ⟨fun _ set => exec_of_idle (i := .setf set) rfl nofun nofun,
    fun _ set hc => exec_raises_notInit (i := .setf set) rfl hc nofun,
    fun _ set => exec_raises_fgBusy_of_initialized (i := .setf set) rfl nofun nofun,
    filterDrops_empty_iff, reservedBitsFault_of_two_le (by decide)⟩

/-- Settles O30, by the same checks as SETF. -/
theorem clrfClearsTheFilter : Obligations.ClrfClearsTheFilter :=
  ⟨fun _ => exec_of_idle (i := .clrf) rfl nofun nofun,
    fun _ hc => exec_raises_notInit (i := .clrf) rfl hc nofun,
    fun _ => exec_raises_fgBusy_of_initialized (i := .clrf) rfl nofun nofun,
    reservedBitsFault_of_two_le (by decide)⟩

/-- Inside the write bracket an operation other than TXE ends with a fault: some check applies to it (R140, R160). -/
theorem exec_faults_in_bracket {i : Instr} {s t : State} (hi : isSvc i = false) (hfg : s.fg = .writing) (hne : i ≠ .txe)
    (h : exec i s = .next t) : t.fault ≠ none := by
  obtain ⟨-, ⟨code, -, rfl⟩ | ⟨hcheck, -⟩⟩ := exec_next_of_fg hi h
  · exact Option.some_ne_none _
  · obtain ⟨-, -, hbusy, -⟩ := fgCheck_eq_none hcheck
    exact absurd ⟨hfg, hne⟩ hbusy

/-- With the gate of R183 and `ien_rda` clear, an SVC of the receive-data enable's two classes may not occur. -/
theorem not_svcMayOccur_of_ienRda {s : State} (hgate : s.cfg.gateByEnable = true) (hrda : s.ienRda = false) :
    ¬ SvcMayOccur s .rda ∧ ¬ SvcMayOccur s .cti := by
  simp [SvcMayOccur, hgate, hrda]

/-- Settles O31: TXB's own write of `ien_rda` is what the gate reads, and the bracket it opens is what the checks read. -/
theorem txbOpensTheWriteBracket : Obligations.TxbOpensTheWriteBracket := by
  refine ⟨fun _ => exec_of_idle (i := .txb) rfl nofun nofun,
    fun _ hc => exec_raises_notInit (i := .txb) rfl hc nofun,
    fun _ => exec_raises_fgBusy_of_initialized (i := .txb) rfl nofun nofun,
    fun s t hf hidle hinit hgate h => ?_,
    fun i s t _ hfg hi hne h => exec_faults_in_bracket hi hfg hne h, reservedBitsFault_of_two_le (by decide)⟩
  cases (exec_of_idle (i := .txb) rfl nofun nofun hf hidle hinit).symm.trans h
  obtain ⟨hrda, hcti⟩ := not_svcMayOccur_of_ienRda (s := ((s.retire 1).setIenRda false).setFg .writing) hgate rfl
  exact ⟨hrda, hcti, fun hrls => ⟨hf, hinit, fun _ => ⟨fun _ => hrls, nofun, nofun, nofun⟩⟩⟩

/-- Settles O32: TXE is the one operation that passes its checks inside the bracket. -/
theorem txeClosesTheWriteBracket : Obligations.TxeClosesTheWriteBracket := by
  refine ⟨fun s hf hfg hinit => ?_, fun _ hc => exec_raises_notInit (i := .txe) rfl hc nofun,
    fun s hf hidle hinit => exec_txe_raises_txState ⟨hf, .inl hidle⟩ hinit (by simp [hidle]),
    reservedBitsFault_of_two_le (by decide)⟩
  exact exec_of_fgCheck (i := .txe) rfl ⟨hf, .inr hfg⟩ (by simp [fgCheck, hfg, hinit])

/-! ### READ's issue step -/

/-- Settles O34: the emptiness test comes before the settings are read. -/
theorem emptyReadChangesNothing : Obligations.EmptyReadChangesNothing := by
  intro s max hf hidle hinit hl
  exact (exec_read_of_idle max hf hidle hinit).trans (readEffect_of_empty max (s := s.retire 1) hl)

/-- The first word of a READ whose operand fits in MAX (R73). -/
theorem firstWord_read {max : Nat} (hmax : max ≤ 65535) :
    firstWord (.read max) = 0x10000000 ||| BitVec.ofNat 32 max := by
  have hfield : (BitVec.ofNat 16 max).setWidth 32 = BitVec.ofNat 32 max :=
    BitVec.eq_of_toNat_eq (by simp; omega)
  exact congrArg (0x10000000 ||| ·) hfield

/-- Settles O35, a setting a clause; the copy's first phase is `copyPhase`. -/
theorem readIssueStartsTheDrain : Obligations.ReadIssueStartsTheDrain := by
  refine ⟨fun s max hf hidle hinit _ hl => emptyReadChangesNothing s max hf hidle hinit hl,
    fun s max hf hidle hinit hdrain hl hsample => ?_, fun s max hf hidle hinit hdrain hl hsample => ?_,
    fun s max hc hn hmax => ?_, fun s max hf hfg hinit hmax => ?_, fun s w rest hc hm hs hop hres => ?_⟩
  · exact (exec_read_of_idle max hf hidle hinit).trans (readEffect_of_once max (s := s.retire 1) hl hdrain hsample)
  · exact (exec_read_of_idle max hf hidle hinit).trans (readEffect_of_atCopy max (s := s.retire 1) hl hdrain hsample)
  · exact firstWord_read hmax ▸ exec_raises_notInit rfl hc nofun hn
  · exact firstWord_read hmax ▸ exec_raises_fgBusy_of_initialized rfl nofun nofun hf hfg hinit
  · have hillegal : ∃ e, decode (w :: rest) = .error e :=
      (illegalWordsExactly w rest).2 (.inr (.inr (.inl ⟨hop, hres⟩)))
    exact step_raises_illegal hc hm hs (.inl (hs ▸ hillegal))

/-- The state that a READ leaves from Idle when it answers the first `n` bytes, field by field (R155). -/
theorem resetState_firstBytes_of_idle {s : State} (hidle : s.fg = .idle) (n : Nat) :
    resetState (firstBytes n s) s =
      { s with length := 0, trace := s.trace ++ [.readResult n ((List.range n).map s.byteAt)] } := by
  have hcount : readRecord (firstBytes n s) = .readResult n ((List.range n).map s.byteAt) := by
    simp [readRecord, firstBytes]
  rw [resetState, hcount]
  cases s
  cases hidle
  rfl

/-- Settles O36: an empty buffer has no first byte, and its `length` is 0 already. -/
theorem hardenedReadIsOneStep : Obligations.HardenedReadIsOneStep := by
  intro s max hf hidle hinit hdrain hlt
  by_cases hl : s.length = 0
  · refine (emptyReadChangesNothing s max hf hidle hinit hl).trans ?_
    cases s
    cases hl
    simp
  · rw [exec_read_of_idle max hf hidle hinit,
      readEffect_eq_resetState_of_hardened max (s := s.retire _) hl hlt hdrain hidle,
      resetState_firstBytes_of_idle (s := s.retire _) hidle]
    rfl

/-! ### READ's micro-steps -/

/-- A foreground step reaches its state with one choice used up (R184; assumption 4). -/
theorem moves_of_fgTurn {s t : State} (hm : FgMoves s)
    (h : fgTurn (s.setSchedule s.turns.tail) = .next (t.setSchedule s.turns.tail)) : Moves (step s) t :=
  ⟨s.turns.tail, (step_of_fgMoves hm).trans h⟩

/-- Settles O37: `copyPhase` is the choice between copying and resetting. -/
theorem countStepReadsLengthAgain : Obligations.CountStepReadsLengthAgain := by
  intro s max hf hm hfg
  exact moves_of_fgTurn hm (fgTurn_rdCount (s := s.setSchedule s.turns.tail) hf hfg)

/-- Settles O38: element `k` is within the capacity, so the copy has a byte to take. -/
theorem copyStepReadsNextElement : Obligations.CopyStepReadsNextElement := by
  rintro s n k out b hf hm hfg hk hn rfl
  exact moves_of_fgTurn hm ((fgTurn_rdCopy (s := s.setSchedule s.turns.tail) hf hfg).trans
    (microCpy_of_lt (s := s.setSchedule s.turns.tail) out hk (hk.trans hn)))

/-- Settles O39: RST reads neither `length` nor storage. -/
theorem resetStepEmptiesTheBuffer : Obligations.ResetStepEmptiesTheBuffer := by
  intro s out hf hm hfg
  exact moves_of_fgTurn hm (fgTurn_rdReset (s := s.setSchedule s.turns.tail) hf hfg)

/-! ### The drain as a whole (R157) -/

/-- Settles O40: every setting of the drain ends in the state that RST leaves. -/
theorem uninterruptedDrainReturnsOldestBytes : Obligations.UninterruptedDrainReturnsOldestBytes := by
  intro s max rest h hf hi hidle ht hl hstream hmax
  have hrun := runSteps_read hf ht hi hidle hmax hstream hl h.lengthBound
  have hrest : s.stream.drop 1 = rest := by simp [hstream, encode]
  have hfinal := resetState_firstBytes_of_idle (s := s.retire 1) hidle (min max s.length)
  rw [← hrest]
  exact hrun.trans (congrArg _ hfinal)

/-- A READ's result that goes from `s` to `t` counts its bytes, and they are fewer than the capacity (R157(e), R224). -/
def ReadsFewerThanCapacity (s t : State) : Prop :=
  ∀ count bytes, t.trace = s.trace ++ [.readResult count bytes] → count = bytes.length ∧ count < s.cfg.capacity

theorem readsFewerThanCapacity_of_trace {s t : State} (h : t.trace = s.trace) : ReadsFewerThanCapacity s t := by
  intro count bytes hread
  simp [h] at hread

theorem readsFewerThanCapacity_of_readRecord {s t : State} {out : List Byte} (h : t.trace = s.trace ++ [readRecord out])
    (hout : out.length < s.cfg.capacity) : ReadsFewerThanCapacity s t := by
  intro count bytes hread
  cases List.append_cancel_left (h.symm.trans hread)
  exact ⟨rfl, hout⟩

/-- READ's issue step answers no byte, or at most `length` of them (R150, R156). -/
theorem readEffect_readsFewerThanCapacity {max : Nat} {s t : State} (hlt : s.length < s.cfg.capacity)
    (h : readEffect max s = .next t) : ReadsFewerThanCapacity s t := by
  rcases readEffect_next h with ⟨_, rfl⟩ | ⟨_, _, _, rfl⟩ | ⟨_, _, _, rfl⟩ | ⟨_, _, _, rfl⟩
  · exact readsFewerThanCapacity_of_readRecord rfl (Nat.zero_lt_of_lt hlt)
  · exact readsFewerThanCapacity_of_readRecord rfl (by simp [hlt])
  · exact readsFewerThanCapacity_of_trace rfl
  · exact readsFewerThanCapacity_of_trace rfl

/-- Of the foreground operations READ alone emits. -/
theorem exec_readsFewerThanCapacity {i : Instr} (hi : isSvc i = false) {s t : State} (hlt : s.length < s.cfg.capacity)
    (h : exec i s = .next t) : ReadsFewerThanCapacity s t := by
  have hframe := exec_frame_of_fg hi h
  obtain ⟨-, ⟨code, -, rfl⟩ | ⟨-, he⟩⟩ := exec_next_of_fg hi h
  · exact readsFewerThanCapacity_of_trace rfl
  · cases i with
    | read max => exact readEffect_readsFewerThanCapacity (s := s.retire _) hlt he
    | _ => exact readsFewerThanCapacity_of_trace (hframe.trace nofun)

theorem BlockInv.phase_rdReset {s : State} (h : BlockInv s) {out : List Byte} (hfg : s.fg = .rdReset out) :
    s.cfg.hardenedDrain = false ∧ out.length < s.cfg.capacity := by
  simpa only [PhaseInv, hfg] using h.phase

/-- Of the micro-steps RST alone emits, and what it emits the phase bounds (R28, R155). -/
theorem fgTurn_readsFewerThanCapacity {s t : State} (h : BlockInv s) (ht : fgTurn s = .next t) :
    ReadsFewerThanCapacity s t := by
  obtain ⟨-, ⟨_, _, rfl⟩ | ⟨_, _, _, _, _, _, rfl⟩ | ⟨out, hfg, rfl⟩ | ⟨_, _, _, _, hissue⟩⟩ := fgTurn_next ht
  · exact readsFewerThanCapacity_of_trace rfl
  · exact readsFewerThanCapacity_of_trace rfl
  · obtain ⟨-, hout⟩ := h.phase_rdReset hfg
    exact readsFewerThanCapacity_of_readRecord rfl hout
  · rcases hissue with ⟨_, rfl⟩ | ⟨i, _, _, hi, hexec⟩
    · exact readsFewerThanCapacity_of_trace rfl
    · exact exec_readsFewerThanCapacity hi h.lengthBound hexec

/-- Settles O42, by the agent that moves: an SVC emits no READ's result. -/
theorem drainReturnsFewerThanCapacity : Obligations.DrainReturnsFewerThanCapacity := by
  refine ⟨fun s t count bytes h hstep hread => ?_, fun s t n k out h hfg _ _ => ?_⟩
  · rcases step_next hstep with ⟨-, hturn⟩ | ⟨-, w, turns, -, hturn⟩
    · exact fgTurn_readsFewerThanCapacity (h.setSchedule _) hturn count bytes hread
    · obtain ⟨-, o, hsvc⟩ := svcTurn_emits hturn
      cases List.append_cancel_left (hsvc.symm.trans hread)
  · obtain ⟨-, hk, -, hn, -⟩ := h.phase_rdCopy hfg
    omega

/-! ### The drain raced by receive-data events (R220, R221) -/

/-- Settles O51: the append stores at `length` and leaves the copied bytes, and RST then empties the buffer. -/
theorem byteAppendedBeforeResetIsLost : Obligations.ByteAppendedBeforeResetIsLost := by
  intro s out b turns h hf hm hnone hcause hfg hschedule
  have happend := runSteps_of_receiveEvents (bytes := [b]) (turns := .fg :: turns) h.cfgLegal hcause hm hnone
    h.lengthBound hschedule
  have hreset := step_of_agentStep (c := .fg) (t := resetState out (appendedState s b (receivedOutcome b))) turns
    (fgTurn_rdReset (s := appendedState s b (receivedOutcome b)) hf hfg)
  refine ⟨_, (runSteps_add 1 happend).trans (runSteps_succ 0 hreset), ?_, ?_, rfl, rfl, rfl⟩
  · exact List.append_assoc s.trace [_] [_]
  · exact Memory.read_write_same s.storage s.length b

section TornDrain

variable {s : State} (b c : Byte)

/-- One byte below capacity the first of two appends wraps (R110). -/
theorem length_appendedState_of_wrap (o : SvcOutcome) (hwrap : s.length + 1 = s.cfg.capacity) :
    (appendedState s b o).length = 0 :=
  if_pos hwrap

/-- So the second overwrites index 0 (R221). -/
theorem byteAt_zero_receivedState_pair (hwrap : s.length + 1 = s.cfg.capacity) :
    (receivedState [b, c] s).byteAt 0 = c := by
  have hnew := byteAt_appendedState_same (appendedState s b (receivedOutcome b)) c (receivedOutcome c)
  rwa [length_appendedState_of_wrap b _ hwrap] at hnew

/-- And leaves `length` at 1, where that is below the capacity. -/
theorem length_receivedState_pair (hwrap : s.length + 1 = s.cfg.capacity) (hcap : 1 < s.cfg.capacity) :
    (receivedState [b, c] s).length = 1 := by
  have hempty := length_appendedState_of_wrap b (receivedOutcome b) hwrap
  have hsecond := receivedState_length_of_lt (bytes := [c]) (s := appendedState s b (receivedOutcome b))
    (by rw [hempty]; exact hcap)
  rwa [hempty] at hsecond

end TornDrain

/-- Settles O53: the copy's count is below the capacity, so after the wrap there is room for the second byte alone, and the
copy takes it. -/
theorem tornDrainReturnsTheNewByte : Obligations.TornDrainReturnsTheNewByte := by
  intro s n b c turns h hf hm hnone hcause hfg hwrap hschedule
  obtain ⟨-, hn, -, hlt, -⟩ := h.phase_rdCopy hfg
  have happend := runSteps_of_receiveEvents (bytes := [b, c]) (turns := .fg :: turns) h.cfgLegal hcause hm hnone
    h.lengthBound hschedule
  have hcopy := (fgTurn_rdCopy (s := receivedState [b, c] s) hf hfg).trans (microCpy_of_lt [] hn (hn.trans hlt))
  rw [byteAt_zero_receivedState_pair b c hwrap] at hcopy
  refine ⟨_, (runSteps_add 1 happend).trans (runSteps_succ 0 (step_of_agentStep (c := .fg) turns hcopy)), ?_,
    length_receivedState_pair b c hwrap (by omega)⟩
  by_cases hone : 0 + 1 = n
  · exact .inl (if_pos hone)
  · exact .inr (if_neg hone)

end Sys2Proof.Machine
end

section
/-! PROOFS. The exceptions family: when each agent has a step and which step it is (O11 to O13, O50, O54), what raises a fault
and what it leaves (O25, O27), and SVCs without end, which leave the foreground where it is (O56, O57). -/

namespace Sys2Proof.Machine

/-! ### When the foreground agent has a step (R181) -/

/-- A READ that passes its checks completes, whatever the settings: the atomic drain stays within the capacity (R150,
R156). -/
theorem readEffect_completes (max : Nat) {s : State} (hlt : s.length < s.cfg.capacity) :
    ∃ t, readEffect max s = .next t := by
  by_cases hl : s.length = 0
  · exact ⟨_, readEffect_of_empty max hl⟩
  · cases hdrain : s.cfg.hardenedDrain with
    | true => exact ⟨_, (readEffect_of_hardened max hl hdrain).trans (drainAtomic_of_lt hlt)⟩
    | false =>
      cases hsample : s.cfg.readLenSample with
      | once => exact ⟨_, readEffect_of_once max hl hdrain hsample⟩
      | atCopy => exact ⟨_, readEffect_of_atCopy max hl hdrain hsample⟩

/-- A foreground operation that is issued has a next state: a check's fault, or its effect (R140). -/
theorem exec_completes_of_fg {i : Instr} (hi : isSvc i = false) {s : State} (hc : CanIssue s)
    (hlt : s.length < s.cfg.capacity) : ∃ t, exec i s = .next t := by
  cases hcheck : fgCheck i s with
  | some code => exact ⟨_, (exec_fg hi s).trans (issue_fault _ hc hcheck)⟩
  | none =>
    rw [exec_of_fgCheck hi hc hcheck]
    cases i with
    | read max => exact readEffect_completes max hlt
    | setf _ | clrf | init | txb | txe => exact ⟨_, rfl⟩
    | _ => cases hi

/-- A stream that is not empty can be issued: an illegal head is a fault, and a fault is a next state (R140, R185). -/
theorem fgIssue_completes {s : State} (hc : CanIssue s) (hlt : s.length < s.cfg.capacity) (hne : s.stream ≠ []) :
    ∃ t, fgIssue s = .next t := by
  obtain ⟨w, rest, hs⟩ := List.exists_cons_of_ne_nil hne
  cases hd : decode (w :: rest) with
  | error e => exact ⟨faultedState s .illegal w, by simp only [fgIssue, hs, hd]; rfl⟩
  | ok p =>
    obtain ⟨i, ws⟩ := p
    cases hi : isSvc i with
    | true => exact ⟨faultedState s .illegal w, by simp only [fgIssue, hs, hd, hi, if_true]; rfl⟩
    | false =>
      rw [fgIssue_of_decode (hs ▸ hd) hi]
      exact exec_completes_of_fg hi hc hlt

/-- Outside a READ the foreground agent's step is an issue, and it needs a word to issue. -/
theorem fgTurn_next_iff_of_canIssue {s : State} (hc : CanIssue s) (hlt : s.length < s.cfg.capacity) :
    (∃ t, fgTurn s = .next t) ↔ s.stream ≠ [] := by
  rw [fgTurn_issue hc]
  refine ⟨fun ⟨t, ht⟩ hnil => ?_, fgIssue_completes hc hlt⟩
  simp [fgIssue, hnil] at ht

/-- R181, for the foreground agent's own step: by the phase, whose invariant gives a copy its next element. -/
theorem fgTurn_next_iff {s : State} (h : BlockInv s) :
    (∃ t, fgTurn s = .next t) ↔ s.fault = none ∧ ((s.fg ≠ .idle ∧ s.fg ≠ .writing) ∨ s.stream ≠ []) := by
  by_cases hf : s.fault = none
  · cases hfg : s.fg with
    | idle => simp [fgTurn_next_iff_of_canIssue ⟨hf, .inl hfg⟩ h.lengthBound, hf]
    | rdCount max => simp [fgTurn_rdCount hf hfg, microCnt, hf]
    | rdCopy n k out =>
      obtain ⟨-, hk, -, hn, -⟩ := h.phase_rdCopy hfg
      simp [fgTurn_rdCopy hf hfg, microCpy_of_lt out hk (hk.trans hn), hf]
    | rdReset out => simp [fgTurn_rdReset hf hfg, microRst, hf]
    | writing => simp [fgTurn_next_iff_of_canIssue ⟨hf, .inr hfg⟩ h.lengthBound, hf]
  · exact ⟨fun ⟨t, ht⟩ => absurd (fgTurn_next ht).1 hf, fun ⟨hnone, _⟩ => absurd hnone hf⟩

/-- Settles O12: the choice used up is none of what R181 reads. -/
theorem foregroundStepsExactlyWhen : Obligations.ForegroundStepsExactlyWhen := by
  intro s h hm
  rw [step_of_fgMoves hm]
  exact fgTurn_next_iff (h.setSchedule s.turns.tail)

/-! ### When the ISR agent has a step (R182, R183) -/

/-- A delivered word that decodes to an SVC runs as it (R182). -/
theorem svcTurn_of_decode {w : Word} {i : Instr} {ws : List Word} {s : State} (hf : s.fault = none)
    (hd : decode [w] = .ok (i, ws)) (hi : isSvc i = true) : svcTurn w s = exec i s := by
  simp [svcTurn, hf, hd, hi]

/-- Settles O11: the next choice names the ISR agent. -/
theorem interruptStepRunsDecodedSvc : Obligations.InterruptStepRunsDecodedSvc :=
  fun s _ _ turns hf ht hd hi => (step_of_svc ht).trans (svcTurn_of_decode (s := s.setSchedule turns) hf hd hi)

/-- A word alone decodes to SVC exactly when its OP and RES4 are zero (R72, R78). -/
theorem exists_decode_svc_iff (w : Word) :
    (∃ i, decode [w] = .ok (i, []) ∧ isSvc i = true) ↔ w.extractLsb' 24 8 = 0#8 :=
  ⟨fun ⟨_, hd, hi⟩ => (decode_ok_svc hd hi).1, fun hz => ⟨_, decode_svc hz [], isSvc_decodeSvc w⟩⟩

/-- R183, for the ISR agent's own step: below the capacity no service stops. -/
theorem svcTurn_next_iff {w : Word} {s : State} (hlt : s.length < s.cfg.capacity) :
    (∃ t, svcTurn w s = .next t) ↔
      w.extractLsb' 24 8 = 0#8 ∧ SvcMayOccur s (classOf s.cfg (w.extractLsb' 17 3)) := by
  refine ⟨fun ⟨t, ht⟩ => ?_, fun ⟨hz, hm⟩ => ?_⟩
  · obtain ⟨hz, hm, -⟩ := svcTurn_next ht
    exact ⟨hz, hm⟩
  · rw [svcTurn_of_head hz hm]
    exact serviceClass_completes _ _ _ hlt

/-- R183's gate on a class, as the one enable that the class has. -/
theorem svcMayOccur_iff_enabled (s : State) (c : EventClass) :
    SvcMayOccur s c ↔
      s.fault = none ∧ s.initialized = true ∧ (s.cfg.gateByEnable = true → enabled s c = true) := by
  cases c <;> simp [SvcMayOccur, enabled]

/-- Settles O13: the word decodes, and its class's enable is the one that R183 names. -/
theorem svcStepsExactlyWhen : Obligations.SvcStepsExactlyWhen := by
  intro s w turns h ht
  rw [step_of_svc ht, svcTurn_next_iff (s := s.setSchedule turns) h.lengthBound, exists_decode_svc_iff,
    svcMayOccur_iff_enabled, and_left_comm, and_left_comm (a := w.extractLsb' 24 8 = 0#8), State.setSchedule_cfg]
  cases classOf s.cfg (w.extractLsb' 17 3) with
  | rls | rda | cti | thre => rfl
  | other => simp [enabled]

/-- Settles O50: inside the bracket `ien_rda` is clear and `ien_rls` is set, and with no filter no byte is dropped. -/
theorem writeBracketHoldsBackReceiveData : Obligations.WriteBracketHoldsBackReceiveData := by
  intro s w turns h hf hfg hgate ht
  have hi : s.initialized = true := h.initialized_of_fg (by simp [hfg])
  obtain ⟨-, hrls, hrda⟩ := h.afterInit hi
  rw [step_of_svc ht]
  refine ⟨fun hclass t hturn => ?_, fun hz hcause he hd hnone => ?_⟩
  · obtain ⟨-, hm, -⟩ := svcTurn_next hturn
    have hclear : s.ienRda = false := by simpa [hfg] using hrda
    obtain ⟨hnotRda, hnotCti⟩ := not_svcMayOccur_of_ienRda (s := s.setSchedule turns) hgate hclear
    rcases hclass with hclass | hclass
    · exact hnotRda (hclass ▸ hm)
    · exact hnotCti (hclass ▸ hm)
  · have hclass := classOf_rls hcause
    have hm : SvcMayOccur (s.setSchedule turns) .rls := ⟨hf, hi, fun _ => ⟨fun _ => hrls, nofun, nofun, nofun⟩⟩
    have hkept : ¬ FilterDrops s.cfg s.filter (w.extractLsb' 0 8) := by simp [FilterDrops, hnone]
    have hturn := svcTurn_of_head (s := s.setSchedule turns) hz (hclass ▸ hm)
    rw [State.setSchedule_cfg, hclass] at hturn
    exact hturn.trans ((serviceRls_of_dataReady (s := s.setSchedule turns) _ he hd).trans
      (accept_appended (s := s.setSchedule turns) hkept h.lengthBound))

/-- Settles O54: nothing is left to issue, and an SVC reads neither the phase nor the stream. -/
theorem finishedRunHasNoForegroundStep : Obligations.FinishedRunHasNoForegroundStep := by
  refine ⟨fun s ⟨hf, hnil, hidle⟩ hm => ?_, fun s w turns h _ ht hz hm => ?_⟩
  · rw [step_of_canIssue ⟨hf, .inl hidle⟩ hm]
    simp [fgIssue, hnil]
  · rw [step_of_svc ht]
    exact (svcTurn_next_iff (s := s.setSchedule turns) h.lengthBound).2 ⟨hz, hm⟩

/-! ### What raises a fault, and what it leaves (R185, R186) -/

/-- Every operation has a first word (R70). -/
theorem encode_ne_nil (i : Instr) : encode i ≠ [] := by
  cases i <;> exact List.cons_ne_nil _ _

/-- The first word of a decoded operation is the stream's head (R70, R185). -/
theorem firstWord_of_decode {w : Word} {rest ws : List Word} {i : Instr} (hd : decode (w :: rest) = .ok (i, ws)) :
    firstWord i = w := by
  obtain ⟨-, hw⟩ := encodeUndoesDecode _ _ _ hd
  obtain ⟨v, vs, hv⟩ := List.exists_cons_of_ne_nil (encode_ne_nil i)
  rw [hv] at hw
  rw [firstWord, hv]
  exact (List.head_eq_of_cons_eq hw).symm

/-- Why the issue of the stream's head raises the fault `code` (R140): the head is no foreground operation, or it is one and
the first check that applies to it answers the code. -/
def FaultCause (s : State) (code : FaultCode) : Prop :=
  (code = .illegal ∧
    ((∃ e, decode s.stream = .error e) ∨ ∃ i ws, decode s.stream = .ok (i, ws) ∧ isSvc i = true)) ∨
  ∃ i ws, decode s.stream = .ok (i, ws) ∧ isSvc i = false ∧ fgCheck i s = some code

/-- A foreground step that ends with a fault has a cause for it, and raises it for the stream's head with no other effect
(R140, R185). -/
theorem fgTurn_raises {s t : State} {r : FaultRecord} (h : fgTurn s = .next t) (hr : t.fault = some r) :
    FaultCause s r.code ∧ t = faultedState s r.code r.word ∧ s.stream.head? = some r.word ∧ r.index = s.index := by
  obtain ⟨hf, ⟨_, _, rfl⟩ | ⟨_, _, _, _, _, _, rfl⟩ | ⟨_, _, rfl⟩ | ⟨_, w, rest, hs, hissue⟩⟩ := fgTurn_next h
  · cases hf.symm.trans hr
  · cases hf.symm.trans hr
  · cases hf.symm.trans hr
  · rcases hissue with ⟨hbad, rfl⟩ | ⟨i, ws, hd, hi, hexec⟩
    · cases hr
      exact ⟨.inl ⟨rfl, hbad⟩, rfl, by simp [hs], rfl⟩
    · obtain ⟨-, ⟨code, hcheck, rfl⟩ | ⟨-, he⟩⟩ := exec_next_of_fg hi hexec
      · cases hr
        exact ⟨.inr ⟨i, ws, hd, hi, hcheck⟩, rfl, by simp [hs, firstWord_of_decode (hs ▸ hd)], rfl⟩
      · cases hf.symm.trans ((fgEffect_fault he).symm.trans hr)

/-- A step that ends with a fault is the foreground agent's: an SVC raises none (R186). -/
theorem step_raises {s t : State} {r : FaultRecord} (h : step s = .next t) (hr : t.fault = some r) :
    FgMoves s ∧ FaultCause s r.code ∧ t = faultedState (s.setSchedule s.turns.tail) r.code r.word ∧
      s.stream.head? = some r.word ∧ r.index = s.index := by
  rcases step_next h with ⟨hm, hturn⟩ | ⟨-, w, turns, -, hturn⟩
  · exact ⟨hm, fgTurn_raises hturn hr⟩
  · cases (svcTurn_fault hturn).symm.trans hr

/-- Settles O25: the step did nothing but raise the fault, after which no agent has a step. -/
theorem faultsArePreciseAndSticky : Obligations.FaultsArePreciseAndSticky := by
  refine ⟨fun s t r h hr => ?_, fun s t hf h => hf (fault_eq_none_of_step h), fun s hf ⟨hnone, _⟩ => hf hnone⟩
  obtain ⟨hm, -, rfl, hword, hindex⟩ := step_raises h hr
  refine ⟨?_, hword, hindex, hm⟩
  rw [← hr]
  rfl

/-- The checks on a foreground operation, in their order, and what each code says of the state (R140). -/
theorem fgCheck_eq_some {i : Instr} {s : State} {code : FaultCode} (h : fgCheck i s = some code) :
    (code = .reInit ∧ i = .init ∧ s.initialized = true) ∨
    (code = .notInit ∧ i ≠ .init ∧ s.initialized = false) ∨
    (code = .fgBusy ∧ s.fg = .writing ∧ i ≠ .txe ∧ ¬ (i = .init ∧ s.initialized = true)) ∨
    (code = .txState ∧ i = .txe ∧ s.fg ≠ .writing) := by
  unfold fgCheck at h
  split_ifs at h with hreInit hnotInit hbusy htxState
  · cases h
    exact .inl ⟨rfl, hreInit⟩
  · cases h
    exact .inr (.inl ⟨rfl, hnotInit⟩)
  · cases h
    exact .inr (.inr (.inl ⟨rfl, hbusy.1, hbusy.2, hreInit⟩))
  · cases h
    exact .inr (.inr (.inr ⟨rfl, htxState⟩))

/-- The foreground operations other than INIT, as R186 lists them for F_NOT_INIT. -/
theorem foregroundOperation_cases {i : Instr} (hi : isSvc i = false) (hne : i ≠ .init) :
    (∃ max, i = .read max) ∨ (∃ set, i = .setf set) ∨ i = .clrf ∨ i = .txb ∨ i = .txe := by
  cases i with
  | read max => exact .inl ⟨max, rfl⟩
  | setf set => exact .inr (.inl ⟨set, rfl⟩)
  | clrf | txb | txe => simp
  | init => exact absurd rfl hne
  | _ => cases hi

/-- Settles O27, by the check that applies; an open bracket says that INIT has run, so an INIT inside it is F_REINIT. -/
theorem faultCodesAndTheirCauses : Obligations.FaultCodesAndTheirCauses := by
  refine ⟨fun s t r h hstep hr => ?_, rfl, rfl, rfl, rfl, rfl⟩
  obtain ⟨-, hcause, -⟩ := step_raises hstep hr
  rcases hcause with ⟨hcode, hbad⟩ | ⟨i, ws, hd, hi, hcheck⟩
  · rw [hcode]
    exact hbad
  · rcases fgCheck_eq_some hcheck with ⟨hcode, rfl, hinit⟩ | ⟨hcode, hne, hn⟩ | ⟨hcode, hfg, hne, hfresh⟩ |
      ⟨hcode, rfl, hfg⟩
    · rw [hcode]
      exact ⟨hinit, ws, hd⟩
    · rw [hcode]
      exact ⟨hn, i, ws, hd, foregroundOperation_cases hi hne⟩
    · rw [hcode]
      have hinit : s.initialized = true := h.initialized_of_fg (by simp [hfg])
      have hlisted := foregroundOperation_cases hi fun hi => hfresh ⟨hi, hinit⟩
      exact ⟨hfg, i, ws, hd, by simpa [hne] using hlisted⟩
    · rw [hcode]
      exact ⟨hfg, ws, hd⟩

/-! ### SVCs without end (R184, R225) -/

/-- `t` is `s` after `n` SVCs: the foreground is where it was, each SVC has emitted a record, and what may occur has not
changed (R113, R183, R188). -/
structure Serviced (s : State) (n : Nat) (t : State) : Prop where
  fg : t.fg = s.fg
  stream : t.stream = s.stream
  index : t.index = s.index
  cfg : t.cfg = s.cfg
  recurring : t.recurring = s.recurring
  lengthBound : t.length < t.cfg.capacity
  emitted : t.trace.length = s.trace.length + n
  mayOccur : ∀ c, SvcMayOccur t c ↔ SvcMayOccur s c

theorem Serviced.refl {s : State} (hlt : s.length < s.cfg.capacity) : Serviced s 0 s :=
  ⟨rfl, rfl, rfl, rfl, rfl, hlt, rfl, fun _ => Iff.rfl⟩

theorem Serviced.setSchedule {s t : State} {n : Nat} (h : Serviced s n t) (l : List Turn) :
    Serviced s n (t.setSchedule l) :=
  ⟨h.fg, h.stream, h.index, h.cfg, h.recurring, h.lengthBound, h.emitted, h.mayOccur⟩

/-- Word `w` may be delivered at `s`: it decodes to SVC, and its class may occur (R183). -/
def MayDeliver (s : State) (w : Word) : Prop :=
  w.extractLsb' 24 8 = 0#8 ∧ SvcMayOccur s (classOf s.cfg (w.extractLsb' 17 3))

/-- An SVC that may occur at the start still may after any number of others, and is one more. -/
theorem Serviced.svcTurn {s t : State} {n : Nat} {w : Word} (h : Serviced s n t) (hw : MayDeliver s w) :
    ∃ u, svcTurn w t = .next u ∧ Serviced s (n + 1) u ∧ u.schedule = t.schedule := by
  obtain ⟨hz, hm⟩ := hw
  have hmt : SvcMayOccur t (classOf t.cfg (w.extractLsb' 17 3)) := by rwa [h.cfg, h.mayOccur]
  obtain ⟨u, hu, hfg, hstream, hindex, hcfg, hschedule, hrecurring, hlt, htrace, hmay⟩ :=
    svcTurn_of_mayOccur hz h.lengthBound hmt
  exact ⟨u, hu, ⟨hfg.trans h.fg, hstream.trans h.stream, hindex.trans h.index, hcfg.trans h.cfg,
    hrecurring.trans h.recurring, hlt, by rw [htrace, h.emitted, Nat.add_assoc],
    fun c => (hmay c).trans (h.mayOccur c)⟩, hschedule⟩

/-- The states of a run from `s` in which only the words `event` are delivered; it stays where a word has no step. -/
def eventRun (s : State) (event : Nat → Word) : Nat → State
  | 0 => s
  | n + 1 =>
    match svcTurn (event n) (eventRun s event n) with
    | .next t => t
    | _ => eventRun s event n

theorem eventRun_succ {s t : State} {event : Nat → Word} {n : Nat} (h : svcTurn (event n) (eventRun s event n) = .next t) :
    eventRun s event (n + 1) = t := by
  simp [eventRun, h]

section EndlessEvents

variable {s : State} {event : Nat → Word} (hlt : s.length < s.cfg.capacity) (hmay : ∀ n, MayDeliver s (event n))

include hlt hmay

theorem serviced_eventRun (n : Nat) : Serviced s n (eventRun s event n) := by
  induction n with
  | zero => exact .refl hlt
  | succ n ih =>
    obtain ⟨u, hu, hserviced, -⟩ := ih.svcTurn (hmay n)
    rwa [eventRun_succ hu]

/-- Words that may be delivered make an execution without end (R184). -/
theorem executionFrom_eventRun : ExecutionFrom s none (fun n => .svc (event n)) (eventRun s event) := by
  refine ⟨rfl, fun n _ => ?_⟩
  obtain ⟨u, hu, -⟩ := (serviced_eventRun hlt hmay n).svcTurn (hmay n)
  rw [eventRun_succ hu]
  exact hu

end EndlessEvents

/-- A step before an execution without end makes an execution without end. -/
theorem executionFrom_none_cons {s t : State} {choice : Nat → Turn} {run : Nat → State}
    (hstep : agentStep (choice 0) s = .next t) (h : ExecutionFrom t none (fun n => choice (n + 1)) run) :
    ExecutionFrom s none choice (consRun s run) := by
  obtain ⟨hstart, hsteps⟩ := h
  refine ⟨rfl, fun n _ => ?_⟩
  cases n with
  | zero => exact hstep.trans (congrArg _ hstart.symm)
  | succ n => exact hsteps n nofun

/-- The state after INIT, the first operation of a program from reset (R141, R212). -/
def initializedState (cfg : Config) (program : List Word) : State :=
  ((State.boot cfg (0x40000000 :: program) [] []).retire 1).setInitialized

theorem fgTurn_boot_init (cfg : Config) (program : List Word) :
    fgTurn (State.boot cfg (0x40000000 :: program) [] []) = .next (initializedState cfg program) :=
  (fgTurn_issue ⟨rfl, .inl rfl⟩).trans
    ((fgIssue_of_decode (decodeUndoesEncode .init program rfl) rfl).trans (exec_init_of_idle rfl rfl rfl))

/-- After INIT every word that decodes to SVC may be delivered: the three enables are set (R141, R183). -/
theorem mayDeliver_initializedState (cfg : Config) (program : List Word) {w : Word} (hz : w.extractLsb' 24 8 = 0#8) :
    MayDeliver (initializedState cfg program) w :=
  ⟨hz, rfl, rfl, fun _ => ⟨fun _ => rfl, fun _ => rfl, fun _ => rfl, fun _ => rfl⟩⟩

/-- Settles O56: from reset, the run is INIT's step and then the run of the events. -/
theorem environmentMayDeliverWithoutEnd : Obligations.EnvironmentMayDeliverWithoutEnd := by
  refine ⟨fun s event h hmay => ⟨eventRun s event, executionFrom_eventRun h.lengthBound hmay, fun n => ?_⟩,
    fun cfg program event hl hz => ?_⟩
  · have hn := serviced_eventRun h.lengthBound hmay n
    exact ⟨hn.fg, hn.stream, hn.index, hn.emitted⟩
  · have hmay (n : Nat) := mayDeliver_initializedState cfg program (hz (n + 1))
    have hlt : (initializedState cfg program).length < (initializedState cfg program).cfg.capacity := hl.1
    refine ⟨_, executionFrom_none_cons (choice := fun n => if n = 0 then .fg else .svc (event n))
      (fgTurn_boot_init cfg program) (executionFrom_eventRun hlt hmay), fun n hn => ?_⟩
    obtain ⟨m, rfl⟩ := Nat.exists_eq_add_of_le' hn
    have hm := serviced_eventRun hlt hmay m
    exact ⟨hm.stream, hm.index, congrArg (· + 1) (hm.emitted.trans (Nat.zero_add m))⟩

/-- Only words of `events` are to come: those of the schedule, and after them `events` again and again (assumption 4). -/
def OnlyEventsToCome (events : List Word) (s : State) : Prop :=
  s.recurring = events.map .svc ∧ ∃ coming, coming ⊆ events ∧ s.schedule = coming.map .svc

/-- Then the next choice is one of them, and only words of `events` come after it. -/
theorem OnlyEventsToCome.turns {events : List Word} {s : State} (h : OnlyEventsToCome events s) (hne : events ≠ []) :
    ∃ w ∈ events, ∃ coming, coming ⊆ events ∧ s.turns = .svc w :: coming.map .svc := by
  obtain ⟨hrecurring, coming, hsub, hschedule⟩ := h
  cases coming with
  | nil =>
    obtain ⟨w, rest, rfl⟩ := List.exists_cons_of_ne_nil hne
    exact ⟨w, List.mem_cons_self, rest, List.subset_cons_self w rest, (State.turns_of_nil hschedule).trans hrecurring⟩
  | cons w coming =>
    obtain ⟨hw, hcoming⟩ := List.cons_subset.1 hsub
    exact ⟨w, hw, coming, hcoming, State.turns_of_schedule hschedule⟩

/-- While only `events` come and each may be delivered at the start, every one of `k` steps is an SVC (R225). -/
theorem runSteps_of_onlyEventsToCome {s : State} {events : List Word} (hne : events ≠ [])
    (hmay : ∀ w ∈ events, MayDeliver s w) (k : Nat) : ∀ {n : Nat} {t : State}, Serviced s n t →
      OnlyEventsToCome events t → ∃ u, runSteps k t = .next u ∧ Serviced s (n + k) u := by
  induction k with
  | zero => exact fun h _ => ⟨_, rfl, h⟩
  | succ k ih =>
    intro n t h hto
    obtain ⟨w, hw, coming, hcoming, hturns⟩ := hto.turns hne
    obtain ⟨hrecurring, -⟩ := hto
    obtain ⟨u, hu, hserviced, hschedule⟩ := (h.setSchedule (coming.map .svc)).svcTurn (hmay w hw)
    have hsame : u.recurring = t.recurring := hserviced.recurring.trans h.recurring.symm
    obtain ⟨v, hv, hdone⟩ := ih hserviced ⟨hsame.trans hrecurring, coming, hcoming, hschedule⟩
    refine ⟨v, (runSteps_succ k ((step_of_svc hturns).trans hu)).trans hv, ?_⟩
    rwa [Nat.add_right_comm, Nat.add_assoc] at hdone

/-- Settles O57: the run starts with no SVC done and an empty schedule, after which only `events` come. -/
theorem recurringEventsStarveTheForeground : Obligations.RecurringEventsStarveTheForeground := by
  intro s events k h hne hmay hschedule hrecurring
  obtain ⟨t, ht, hserviced⟩ := runSteps_of_onlyEventsToCome hne hmay k (.refl h.lengthBound)
    ⟨hrecurring, [], List.nil_subset events, hschedule⟩
  exact ⟨t, ht, hserviced.fg, hserviced.stream, hserviced.index, by simpa using hserviced.emitted⟩

end Sys2Proof.Machine
end

section
/-! PROOFS. The hazards family: an SVC during a copy whose count has not been wrapped below (O52). -/

namespace Sys2Proof.Machine

/-- A bound on `length` survives an append that does not wrap (R110). -/
theorem le_length_appendedState_or_wraps {n : Nat} {s : State} (b : Byte) (o : SvcOutcome) (hn : n ≤ s.length) :
    n ≤ (appendedState s b o).length ∨ (appendedState s b o).length = 0 := by
  by_cases hwrap : s.length + 1 = s.cfg.capacity
  · exact .inr (length_appendedState_of_wrap b o hwrap)
  · have hup : (appendedState s b o).length = s.length + 1 := if_neg hwrap
    exact .inl (hup ▸ Nat.le_succ_of_le hn)

/-- Settles O52: an SVC leaves the phase, and its one store, if any, is at `length`, which is at the count or above. -/
theorem appendDuringCopyLandsAboveTheCount : Obligations.AppendDuringCopyLandsAboveTheCount := by
  intro s t n k out w turns _ hfg hn hturns hstep
  obtain ⟨-, -, hservice⟩ := svcTurn_next ((step_of_svc hturns).symm.trans hstep)
  rcases serviceClass_next hservice with ⟨o, -, -, rfl⟩ | ⟨o, -, -, -, -, -, rfl⟩
  · exact ⟨hfg, fun _ _ => rfl, .inl hn⟩
  · exact ⟨hfg, fun a ha => byteAt_appendedState_other (s.setSchedule turns) _ o (Nat.ne_of_lt (ha.trans_le hn)),
      le_length_appendedState_or_wraps (s := s.setSchedule turns) _ o hn⟩

end Sys2Proof.Machine
end
